-- ==== Sys2Proof/Word.lean ====
section
/-! DEFINITION. The words of the block and the operand forms of its operations (00_scope.md R11, R13;
30_encoding.md R93). -/

namespace Sys2Proof

/-- `u8`: a byte, the unit of every stream and of every register but `length` and the counter (R11 `BYTE_W`, R13). -/
abbrev Byte := BitVec 8

/-- `u16`: the width of the wire length field and of `P.length` (R11 `LEN_W`). -/
abbrev Half := BitVec 16

/-- Where PUMP's operand `in` comes from (R150: it is the answer of one `RxRead()`, "and a model may pass it as
an argument or let PUMP call the oracle"). DESIGN CHOICE, safe (log entry 6): both forms exist. -/
inductive PumpInput where
  /-- PUMP performs the `RxRead()` itself. -/
  | read
  /-- The caller passes the answer of a read it made: `none` or a byte. -/
  | given (answer : Option Byte)
  deriving DecidableEq, Repr

end Sys2Proof
end

