-- ==== Sys2Proof/Config.lean ====
section
/-! DEFINITION. The build-time parameters of 00_scope.md R11. -/

namespace Sys2Proof

/-- The parameters the source leaves OPEN (R11, R137; 93_implementation_defined.md U13 "parameter"). DESIGN CHOICE,
safe (log entry 1): a record of them is a field of the state, which no instruction writes, so a statement about
every state speaks of every value of them. -/
structure Config where
  /-- `CAP`: capacity of the Frame Buffer in bytes. -/
  cap : Nat
  /-- `AT_TYPE`: the frame type ENCODE_AT uses. -/
  atType : Byte
  /-- `AT_ID`: the frame id ENCODE_AT uses. -/
  atId : Byte
  deriving DecidableEq, Repr

/-- The defaults of R11: `CAP` 64, `AT_TYPE` 0x08, `AT_ID` 0x01. -/
def Config.default : Config := { cap := 64, atType := 0x08, atId := 0x01 }

/-- R11: the constraint `2 ≤ CAP ≤ 65535`. -/
abbrev Config.Ok (c : Config) : Prop := 2 ≤ c.cap ∧ c.cap ≤ 65535

/-- `START`: the start marker byte (R11). -/
abbrev Config.start : Byte := 0x7E

/-- `ENC_MAX`: the largest payload length ENCODE accepts (R11). -/
abbrev Config.encMax : Nat := 65533

end Sys2Proof
end

