-- ==== Sys2Proof/Syntax.lean ====
section
/-! DEFINITION. The instructions: one constructor per row of spec/opcode_table.json. Seven operations (format OP,
30_encoding.md R93), eight byte classes of the assembler (format RXBYTE, R90) and the frame head (format WIRE, R81). -/

namespace Sys2Proof

inductive Instr where
  /-- PUMP (R150): one optional received byte. -/
  | pump (input : PumpInput)
  /-- PARSE (R180): consume what the transport has available. -/
  | parse
  /-- ENCODE (R130, R132). -/
  | encode (frameType frameId : Byte) (payload : List Byte) (payloadLen : Half)
  /-- ENCODE_AT (R136); `cmd` is exactly the two bytes `cmd0 cmd1`. -/
  | encodeAt (cmd0 cmd1 : Byte) (param : List Byte) (paramLen : Half)
  /-- CHECKSUM (R110). -/
  | checksum (typeByte idByte : Byte) (payload : List Byte)
  /-- VERIFY (R112). -/
  | verify (typeByte idByte : Byte) (payload : List Byte) (checksumByte : Byte)
  /-- RESET (R200). -/
  | reset
  /-- IDLE_MARKER (R158): the byte is `0x7E`, so it is no operand. -/
  | idleMarker
  /-- IDLE_DISCARD (R159): the byte is not `0x7E`. -/
  | idleDiscard (b : Byte)
  /-- LEN_HI (R160). -/
  | lenHi (b : Byte)
  /-- LEN_LO (R161). -/
  | lenLo (b : Byte)
  /-- TYPE (R162). -/
  | typeByte (b : Byte)
  /-- ID (R163). -/
  | idByte (b : Byte)
  /-- PAYLOAD (R165). -/
  | payloadByte (b : Byte)
  /-- CKSUM (R166). -/
  | cksumByte (b : Byte)
  /-- FRAME_HEAD (R81): the five bytes `7E lenHi lenLo frameType frameId` arriving in this order. -/
  | frameHead (lenHi lenLo frameType frameId : Byte)
  deriving DecidableEq, Repr

end Sys2Proof
end

