-- ==== Sys2Proof/Decode.lean ====
section
/-! DEFINITION. Decoding and encoding. The block has two encodings (30_encoding.md): the wire, on which a received
byte means what the assembler's position says (R90), and the operation codes of a command port (R94). A `Request` is
the bits of one instruction in one of the table's three formats OP, RXBYTE, WIRE (R98). -/

namespace Sys2Proof

/-- The bits of one instruction, in the format of its table row (R98). The operand bytes behind an operation code
are the model's layout: the spec gives only the code (DESIGN CHOICE, log entry 3). -/
inductive Request where
  /-- Format OP: the 3-bit code of R94 and the operand bytes. -/
  | op (code : BitVec 3) (operands : List Byte)
  /-- Format RXBYTE: one received byte (R90). -/
  | rxByte (b : Byte)
  /-- Format WIRE: bytes of a frame, first on the wire first (R81). -/
  | wire (bytes : List Byte)
  deriving DecidableEq, Repr

/-- The named states of the Packet (10_state.md R32): the source's seven and Complete. -/
inductive PacketState where
  | idle
  | headerLengthHigh
  | headerLengthLow
  | headerType
  | headerId
  | payload
  | checksum
  | complete
  deriving DecidableEq, Repr

/-- The eight byte classes of a received byte (R90). -/
inductive ByteClass where
  | idleMarker
  | idleDiscard
  | lenHi
  | lenLo
  | typeByte
  | idByte
  | payloadByte
  | cksumByte
  deriving DecidableEq, Repr

/-- Why bits are no instruction. -/
inductive DecodeError where
  /-- Operation code `111` (R94, U15). -/
  | unassignedCode
  /-- The operand bytes do not fit the operation of this code (the model's layout, log entry 3). -/
  | operandBytes (code : BitVec 3)
  /-- A frame head does not begin with the start marker (R81). -/
  | noMarker
  /-- A frame head is not five bytes (R81). -/
  | headSize
  /-- A received byte has no class because the Packet is one without a named state (R34, U10; log entries 13, 20). -/
  | packetMeaningless
  deriving DecidableEq, Repr

/-! ## Fields -/

/-- `hi(v) = v[15:8]` (R14). -/
def hiByte (v : Half) : Byte := v.extractLsb' 8 8

/-- `lo(v) = v[7:0]` (R14). -/
def loByte (v : Half) : Byte := v.extractLsb' 0 8

/-- `h ‖ l`, the big-endian 16-bit value (R14, R51). -/
def joinBytes (h l : Byte) : Half := h ++ l

/-! ## Received bytes -/

/-- Classification of a received byte (R90, R153): by the state of the Packet, and by the byte's value only in Idle.
A complete Packet is reset before the byte is consumed (R151), so its byte is met in Idle (R177). -/
def classify (st : PacketState) (b : Byte) : ByteClass :=
  match st with
  | .idle => if b = Config.start then .idleMarker else .idleDiscard
  | .complete => if b = Config.start then .idleMarker else .idleDiscard
  | .headerLengthHigh => .lenHi
  | .headerLengthLow => .lenLo
  | .headerType => .typeByte
  | .headerId => .idByte
  | .payload => .payloadByte
  | .checksum => .cksumByte

/-- The instruction that a byte of a class is. -/
def classInstr (c : ByteClass) (b : Byte) : Instr :=
  match c with
  | .idleMarker => .idleMarker
  | .idleDiscard => .idleDiscard b
  | .lenHi => .lenHi b
  | .lenLo => .lenLo b
  | .typeByte => .typeByte b
  | .idByte => .idByte b
  | .payloadByte => .payloadByte b
  | .cksumByte => .cksumByte b

/-! ## Operations -/

/-- PUMP's operand: no byte where PUMP reads the transport; `00` for `none`; `01 b` for the byte `b`. -/
def decodePump : List Byte → Except DecodeError Instr
  | [] => .ok (.pump .read)
  | [f] => if f = 0 then .ok (.pump (.given none)) else .error (.operandBytes 0)
  | [f, b] => if f = 1 then .ok (.pump (.given (some b))) else .error (.operandBytes 0)
  | _ => .error (.operandBytes 0)

/-- PARSE has no operand. -/
def decodeParse : List Byte → Except DecodeError Instr
  | [] => .ok .parse
  | _ => .error (.operandBytes 1)

/-- ENCODE: type, id, `payloadLen` big-endian, then the payload. -/
def decodeEncode : List Byte → Except DecodeError Instr
  | t :: i :: h :: l :: payload => .ok (.encode t i payload (joinBytes h l))
  | _ => .error (.operandBytes 2)

/-- ENCODE_AT: the two command bytes, `paramLen` big-endian, then the parameter. -/
def decodeEncodeAt : List Byte → Except DecodeError Instr
  | c0 :: c1 :: h :: l :: param => .ok (.encodeAt c0 c1 param (joinBytes h l))
  | _ => .error (.operandBytes 3)

/-- CHECKSUM: type, id, then the payload. -/
def decodeChecksum : List Byte → Except DecodeError Instr
  | t :: i :: payload => .ok (.checksum t i payload)
  | _ => .error (.operandBytes 4)

/-- VERIFY: type, id, the checksum byte, then the payload. -/
def decodeVerify : List Byte → Except DecodeError Instr
  | t :: i :: c :: payload => .ok (.verify t i payload c)
  | _ => .error (.operandBytes 5)

/-- RESET has no operand. -/
def decodeReset : List Byte → Except DecodeError Instr
  | [] => .ok .reset
  | _ => .error (.operandBytes 6)

/-- The operation codes (R94). -/
def decodeOp (code : BitVec 3) (operands : List Byte) : Except DecodeError Instr :=
  match code.toNat with
  | 0 => decodePump operands
  | 1 => decodeParse operands
  | 2 => decodeEncode operands
  | 3 => decodeEncodeAt operands
  | 4 => decodeChecksum operands
  | 5 => decodeVerify operands
  | 6 => decodeReset operands
  | _ => .error .unassignedCode

/-- The frame head (R81): the marker, `len_hi`, `len_lo`, `frameType`, `frameId`. -/
def decodeWire : List Byte → Except DecodeError Instr
  | [m, h, l, t, i] => if m = Config.start then .ok (.frameHead h l t i) else .error .noMarker
  | _ => .error .headSize

/-- The decoder, total on all bits. `st` is the named state of the Packet when the bits are met, `none` where the
spec gives the Packet no meaning; only a received byte depends on it. -/
def decode (st : Option PacketState) (r : Request) : Except DecodeError Instr :=
  match r with
  | .op code operands => decodeOp code operands
  | .rxByte b =>
    match st with
    | some q => .ok (classInstr (classify q b) b)
    | none => .error .packetMeaningless
  | .wire bytes => decodeWire bytes

/-! ## The encoder -/

/-- The operand bytes of PUMP. -/
def encodePumpInput : PumpInput → List Byte
  | .read => []
  | .given none => [0]
  | .given (some b) => [1, b]

/-- The bits of an instruction. -/
def encode : Instr → Request
  | .pump input => .op 0 (encodePumpInput input)
  | .parse => .op 1 []
  | .encode t i payload n => .op 2 (t :: i :: hiByte n :: loByte n :: payload)
  | .encodeAt c0 c1 param n => .op 3 (c0 :: c1 :: hiByte n :: loByte n :: param)
  | .checksum t i payload => .op 4 (t :: i :: payload)
  | .verify t i payload c => .op 5 (t :: i :: c :: payload)
  | .reset => .op 6 []
  | .idleMarker => .rxByte Config.start
  | .idleDiscard b => .rxByte b
  | .lenHi b => .rxByte b
  | .lenLo b => .rxByte b
  | .typeByte b => .rxByte b
  | .idByte b => .rxByte b
  | .payloadByte b => .rxByte b
  | .cksumByte b => .rxByte b
  | .frameHead h l t i => .wire [Config.start, h, l, t, i]

/-- The class of a byte-class instruction, with its byte. -/
def Instr.byteClass? : Instr → Option (ByteClass × Byte)
  | .pump _ => none
  | .parse => none
  | .encode _ _ _ _ => none
  | .encodeAt _ _ _ _ => none
  | .checksum _ _ _ => none
  | .verify _ _ _ _ => none
  | .reset => none
  | .idleMarker => some (.idleMarker, Config.start)
  | .idleDiscard b => some (.idleDiscard, b)
  | .lenHi b => some (.lenHi, b)
  | .lenLo b => some (.lenLo, b)
  | .typeByte b => some (.typeByte, b)
  | .idByte b => some (.idByte, b)
  | .payloadByte b => some (.payloadByte, b)
  | .cksumByte b => some (.cksumByte, b)
  | .frameHead _ _ _ _ => none

/-- The instruction can be what its bits mean while the Packet is in the named state: a byte class must be the class
of its byte there (R90); the other instructions mean the same in every state. -/
def Instr.admittedAt (i : Instr) (st : PacketState) : Bool :=
  match i.byteClass? with
  | some (c, b) => decide (classify st b = c)
  | none => true

/-- `Instr.admittedAt` as a proposition. -/
abbrev Instr.AdmittedAt (i : Instr) (st : PacketState) : Prop := i.admittedAt st = true

/-! ## The host's table words -/

/-- As many zero operand bytes as the operation of this code needs at least. -/
def zeroOperands (code : Nat) : List Byte :=
  match code with
  | 2 => [0, 0, 0, 0]
  | 3 => [0, 0, 0, 0]
  | 4 => [0, 0]
  | 5 => [0, 0, 0]
  | _ => []

/-- The request a word of spec/opcode_table.json stands for (log entry 16): a 40-bit word is the WIRE row, whose bits
39 to 32 the table gives the byte at wire offset 0; a byte below 8 is an operation code (OP rows, bits 2 to 0); any
other byte is a received byte (RXBYTE rows). -/
def tableRequest (nbits w : Nat) : Option Request :=
  if nbits = 40 then
    some (.wire [BitVec.ofNat 8 (w / 4294967296), BitVec.ofNat 8 (w / 16777216), BitVec.ofNat 8 (w / 65536),
      BitVec.ofNat 8 (w / 256), BitVec.ofNat 8 w])
  else if nbits ≤ 8 then
    if w < 8 then some (.op (BitVec.ofNat 3 w) (zeroOperands w))
    else if w < 256 then some (.rxByte (BitVec.ofNat 8 w))
    else none
  else none

/-- What the decoder reads from a table word, met right after reset (the Packet in Idle). -/
def decodeTableWord (nbits w : Nat) : Option Instr :=
  match tableRequest nbits w with
  | none => none
  | some r =>
    match decode (some .idle) r with
    | .ok i => some i
    | .error _ => none

end Sys2Proof
end

