-- ==== Sys2Proof/Machine/State.lean ====
section
/-! DEFINITION. The state of the machine as plain data (10_state.md, 20_memory.md, 70_reset_and_hazards.md R241), the
ways a step can stop, and the state after reset. -/

namespace Sys2Proof.Machine

/-- The scalar fields of the Packet `P` (R21). The Frame Buffer is `State.buf`. -/
structure Packet where
  /-- "true once the start marker has been observed" -/
  started : Bool
  /-- Bytes of the current frame consumed, the marker included (R26). 17 bits suffice (R28); DEDUCED, safe (log
  entry 2): held as a natural number. -/
  bytesReceived : Nat
  /-- The declared length (R24). -/
  length : Half
  frameType : Byte
  frameId : Byte
  /-- "set once the trailing checksum byte arrives" -/
  checksumReceived : Bool
  /-- The checksum byte as received. -/
  checksum : Byte
  /-- Sum modulo 256 of the type, id, payload and checksum bytes consumed in the current frame. -/
  runSum : Byte
  deriving DecidableEq, Repr

/-- `FRESH` (R36): "all fields to zero/false". -/
def Packet.fresh : Packet :=
  { started := false, bytesReceived := 0, length := 0, frameType := 0, frameId := 0, checksumReceived := false,
    checksum := 0, runSum := 0 }

/-- The conditions of the Packet (R33). -/
inductive Condition where
  | fresh
  | inProgress
  | complete
  deriving DecidableEq, Repr

/-- A byte store: cells with rising indices. An index not listed has no specified value (R37; log entry 8). -/
abbrev Memory := List Host.Cell

/-- What PUMP and PARSE return (R18, R172). The view of a frame is borrowed: its bytes are read from the Frame Buffer
(R70), so it is no field here. -/
inductive ParseResult where
  | noFrame
  | frame (frameType : Byte) (payloadLen : Half)
  deriving DecidableEq, Repr

/-- What the last operation returned to the caller (R18). The model's own field (DESIGN CHOICE, log entry 9). -/
inductive Returned where
  /-- Nothing: ENCODE, ENCODE_AT, RESET, or no operation yet. -/
  | nothing
  /-- CHECKSUM's byte. -/
  | byte (b : Byte)
  /-- VERIFY's boolean. -/
  | bool (b : Bool)
  /-- A ParseResult, which `State.lastResult` holds. -/
  | parse
  deriving DecidableEq, Repr

/-- What stops the machine with a fault. The block has no fault outcome (R212): no step raises one. -/
inductive Fault where
  /-- Raised by `memRead` for a byte of the Frame Buffer whose value is unspecified (R37, R54). Safe. -/
  | unspecifiedByte (index : Nat)
  /-- Raised by `memRead` for an index at or above `CAP` (R53, R54). Safe. -/
  | outsideBuffer (index : Nat)
  deriving DecidableEq, Repr

/-- What the model gives no meaning. -/
inductive Refusal where
  /-- Raised by an arm of `exec` that has no meaning yet. Safe. -/
  | notModelled (mnemonic : String)
  /-- Raised by `step` for bits that are no instruction (R94 code `111`, U15; the model's request layout). Safe. -/
  | undecodable (e : DecodeError)
  /-- Raised when a byte reaches a Packet that is not complete and breaks 10_state.md R34 (a) or (b): "unreachable and
  this spec gives it no meaning" (U10; log entry 13). Safe. -/
  | packetMeaningless
  /-- Raised by a byte-class instruction whose byte is not in that class in this state (R90). No step raises it,
  since `step` classifies the byte itself (log entry 7). Safe. -/
  | classCondition
  /-- Raised by ENCODE and ENCODE_AT for a payload longer than 65533 bytes (R131 (1), U1). Safe. -/
  | payloadTooLong
  /-- Raised by ENCODE and ENCODE_AT for an operand shorter than its declared length (R131 (2), R136, U2). Safe. -/
  | payloadTooShort
  /-- Raised by `viewByte` for a view that is dead, or an index it does not have (R250, U3). Safe. -/
  | viewDead
  deriving DecidableEq, Repr

/-- The state of the machine. -/
structure State where
  /-- The build-time parameters (R11); no instruction writes them. -/
  cfg : Config
  /-- The Packet's scalar fields (R20, R21). -/
  packet : Packet
  /-- The Frame Buffer (R21, R50): indices below `CAP`, only bytes written since the last reset listed. -/
  buf : Memory
  /-- The transport's answers to the block's reads still to come, in order (R57). -/
  rx : List (Option Byte)
  /-- The TX stream: every byte handed to the transport, oldest first (R59). -/
  tx : List Byte
  /-- The last ParseResult (R241 "last result"). -/
  lastResult : ParseResult
  /-- What the last operation returned (R18). -/
  returned : Returned
  /-- The operations the caller has asked for and the block has not performed, oldest first (R9). -/
  requests : List Request
  deriving DecidableEq, Repr

/-- The state right after reset (R240, R241): the Packet is FRESH, the buffer unspecified, the last result NoFrame.
The parameters have R11's defaults (log entry 1); the streams, which are not the block's, and the caller's queue are
empty (DESIGN CHOICE, log entries 3, 5 and 9). -/
def State.reset : State :=
  { cfg := Config.default, packet := Packet.fresh, buf := [], rx := [], tx := [], lastResult := .noFrame,
    returned := .nothing, requests := [] }

end Sys2Proof.Machine
end

