-- ==== Sys2Proof/Machine/Ops.lean ====
section
/-! DEFINITION. The named operations over the Frame Buffer, the streams and the Packet (20_memory.md), and the one
operation that stands in place of taking an exception: `P <- FRESH` (60_exceptions.md R222). -/

namespace Sys2Proof.Machine

/-! ## A byte store in canonical form -/

/-- The canonical form: indices strictly rising. Every listed byte is one that was written, and an unlisted index has
no value, so no entry equals what an unlisted index reads as. -/
def Memory.wf : Memory → Bool
  | [] => true
  | [_] => true
  | (a, _) :: (b, y) :: rest => decide (a < b) && Memory.wf ((b, y) :: rest)

/-- The byte at an index, where it has a specified value. -/
def Memory.read : Memory → Nat → Option Byte
  | [], _ => none
  | (a, x) :: rest, i => if a = i then some x else Memory.read rest i

/-- Replace one byte, keeping the indices rising. -/
def Memory.write : Memory → Nat → Byte → Memory
  | [], i, b => [(i, b)]
  | (a, x) :: rest, i, b =>
    if i < a then (i, b) :: (a, x) :: rest
    else if i = a then (i, b) :: rest
    else (a, x) :: Memory.write rest i b

/-! ## One named update per piece of state -/

/-- Replace the Packet. -/
def State.setPacket (s : State) (p : Packet) : State := { s with packet := p }

/-- Replace the Frame Buffer's content. -/
def State.setBuf (s : State) (m : Memory) : State := { s with buf := m }

/-- Replace the transport's answers to come. -/
def State.setRx (s : State) (answers : List (Option Byte)) : State := { s with rx := answers }

/-- Replace the TX stream. -/
def State.setTx (s : State) (bytes : List Byte) : State := { s with tx := bytes }

/-- Return a ParseResult to the caller (R18). -/
def State.setResult (s : State) (r : ParseResult) : State := { s with lastResult := r, returned := .parse }

/-- Return something other than a ParseResult (R18): the last ParseResult, and so its view, stays (R135). -/
def State.setReturned (s : State) (v : Returned) : State := { s with returned := v }

/-- Replace the caller's queue. -/
def State.setRequests (s : State) (rs : List Request) : State := { s with requests := rs }

/-! ## The Frame Buffer -/

/-- `MemWrite(i, 1, b)` (R53). Its one caller, the PAYLOAD class, tests `i < CAP` first (R165). -/
def memWrite (i : Nat) (b : Byte) (s : State) : State := s.setBuf (Memory.write s.buf i b)

/-- `MemRead(i, 1)` (R54): a read of a byte without a specified value, or outside the buffer, faults. -/
def memRead (i : Nat) (s : State) : Host.Outcome Byte Fault Refusal :=
  if i < s.cfg.cap then
    match Memory.read s.buf i with
    | some b => .next b
    | none => .fault (.unspecifiedByte i)
  else .fault (.outsideBuffer i)

/-- The caller's read `view[j]` of the last result's view (R172): `MemRead(2 + j, 1)` for `j < payloadLen`. A view
that is dead (R70, R250) and an index the view does not have are refused (U3; log entry 17). -/
def viewByte (j : Nat) (s : State) : Host.Outcome Byte Fault Refusal :=
  match s.lastResult with
  | .frame _ n => if j < n.toNat then memRead (2 + j) s else .refused .viewDead
  | .noFrame => .refused .viewDead

/-! ## The transport -/

/-- `RxRead()` (R57): the transport's next answer, consumed. Past the end of the script it answers `none` for ever
(R218). -/
def rxRead (s : State) : Option Byte × State :=
  match s.rx with
  | [] => (none, s)
  | a :: rest => (a, s.setRx rest)

/-- How many bytes stand before the first `none`. -/
def bytesReady : List (Option Byte) → Nat
  | some _ :: rest => bytesReady rest + 1
  | _ => 0

/-- `RxAvail()` (R58): "bytes currently available to read". -/
def rxAvail (s : State) : Nat := bytesReady s.rx

/-- `TxWrite` of several bytes in order (R59). -/
def txWrite (bytes : List Byte) (s : State) : State := s.setTx (s.tx ++ bytes)

/-! ## `P <- FRESH` -/

/-- `P <- FRESH` (R36): every scalar field at its reset value, every buffer byte unspecified (R37). There is one kind
of reset (R201): the supersede step, a failed verdict and RESET all perform it. It is all that a rejection does in
place of trap entry: nothing is saved and there is no vector (R222). -/
def freshen (s : State) : State := (s.setPacket Packet.fresh).setBuf []

/-! ## Sums of bytes -/

/-- The sum modulo 256 of a byte sequence; an empty sum is 0 (R15, R115). -/
def sumBytes : List Byte → Byte
  | [] => 0
  | b :: rest => b + sumBytes rest

end Sys2Proof.Machine
end

