-- ==== Sys2Proof/Machine/Flags.lean ====
section
/-! DEFINITION. The two flags `started` and `checksumReceived` and what is read off them (10_state.md R30 to R33):
the named state, the condition, the counter step and the buffer's logical length. -/

namespace Sys2Proof.Machine

/-- The named state of the Packet (R32), by its key `(started, bytesReceived, checksumReceived)`. `none` for a Packet
that is not complete and breaks R34 (a) or (b), which the spec gives no meaning (U10; log entry 13). A Packet with
`checksumReceived = 1` is Complete, as R32's key for it reads, also where it breaks R34 (a) or (b), to which R34 gives
no meaning: DESIGN CHOICE, unsafe in those unreachable states (log entry 20). In the last two rows
`bytesReceived ≥ 5`, so the subtraction is exact (R29). -/
def Packet.stateName (p : Packet) : Option PacketState :=
  if p.checksumReceived = true then some .complete
  else if p.started = true then
    if p.bytesReceived = 0 then none
    else if p.bytesReceived = 1 then some .headerLengthHigh
    else if p.bytesReceived = 2 then some .headerLengthLow
    else if p.bytesReceived = 3 then some .headerType
    else if p.bytesReceived = 4 then some .headerId
    else if p.bytesReceived - 3 < p.length.toNat then some .payload
    else some .checksum
  else if p = Packet.fresh then some .idle
  else none

/-- The condition a named state belongs to (R33). -/
def conditionOf (st : PacketState) : Condition :=
  match st with
  | .idle => .fresh
  | .headerLengthHigh => .inProgress
  | .headerLengthLow => .inProgress
  | .headerType => .inProgress
  | .headerId => .inProgress
  | .payload => .inProgress
  | .checksum => .inProgress
  | .complete => .complete

/-- `bufLen(P)`, the buffer's logical length (R42). -/
def bufLen (cap : Nat) (p : Packet) : Nat :=
  if 5 ≤ p.bytesReceived then min cap (min p.length.toNat (p.bytesReceived - 3)) else 0

/-- The counter step (R167): `started` is tested as the class rule left it. -/
def counterStep (s : State) : State :=
  if s.packet.started = true then s.setPacket { s.packet with bytesReceived := s.packet.bytesReceived + 1 } else s

/-- The supersede step (R151): a complete Packet is reset before anything else happens; also one that breaks R34 (a) or
(b) (DESIGN CHOICE, log entry 20). -/
def supersede (s : State) : State := if s.packet.checksumReceived = true then freshen s else s

end Sys2Proof.Machine
end

