-- ==== Sys2Proof/Machine/Operands.lean ====
section
/-! DEFINITION. The operand forms of the operations (30_encoding.md R93). -/

namespace Sys2Proof.Machine

/-- PUMP's operand (R150): the answer of one `RxRead()`, performed here or passed in by the caller. -/
def pumpOperand (input : PumpInput) (s : State) : Option Byte × State :=
  match input with
  | .read => rxRead s
  | .given answer => (answer, s)

/-- ENCODE's payload operand (R131, R132): the first `payloadLen` bytes, or why the operation is refused. -/
def encodePayload (payload : List Byte) (payloadLen : Half) : Except Refusal (List Byte) :=
  if Config.encMax < payloadLen.toNat then .error .payloadTooLong
  else if payload.length < payloadLen.toNat then .error .payloadTooShort
  else .ok (payload.take payloadLen.toNat)

/-- ENCODE_AT's payload (R136): the two command bytes and the first `paramLen` parameter bytes, or why the operation
is refused. -/
def encodeAtPayload (cmd0 cmd1 : Byte) (param : List Byte) (paramLen : Half) : Except Refusal (List Byte) :=
  if Config.encMax < paramLen.toNat + 2 then .error .payloadTooLong
  else if param.length < paramLen.toNat then .error .payloadTooShort
  else .ok (cmd0 :: cmd1 :: param.take paramLen.toNat)

end Sys2Proof.Machine
end

