-- ==== Sys2Proof/Machine/Assembler.lean ====
section
/-! DEFINITION. The Frame Assembler (42_assembler.md): the eight byte classes, the verdict, PUMP, PARSE, and the frame
head of the wire format as received. -/

namespace Sys2Proof.Machine

/-! ## The effect of each byte class -/

/-- Add a byte to the running sum (R21, R115). -/
def addToSum (b : Byte) (s : State) : State := s.setPacket { s.packet with runSum := s.packet.runSum + b }

/-- R158: the marker is neither stored nor summed. -/
def idleMarkerEffect (s : State) : State := s.setPacket { s.packet with started := true }

/-- R159: the byte is discarded. -/
def idleDiscardEffect (s : State) : State := s

/-- R160: "byte becomes the high 8 bits of `length` (shifted left 8)". -/
def lenHiEffect (b : Byte) (s : State) : State :=
  s.setPacket { s.packet with length := b.setWidth 16 <<< 8 }

/-- R161: "byte is added to `length`'s low 8 bits". -/
def lenLoEffect (b : Byte) (s : State) : State :=
  s.setPacket { s.packet with length := s.packet.length + b.setWidth 16 }

/-- R162. -/
def typeEffect (b : Byte) (s : State) : State := addToSum b (s.setPacket { s.packet with frameType := b })

/-- R163. -/
def idEffect (b : Byte) (s : State) : State := addToSum b (s.setPacket { s.packet with frameId := b })

/-- R165: stored at index `bytesReceived − 3` only where that is below `CAP`; summed whether stored or not. -/
def payloadEffect (b : Byte) (s : State) : State :=
  let index := s.packet.bytesReceived - 3
  addToSum b (if index < s.cfg.cap then memWrite index b s else s)

/-- R166. -/
def cksumEffect (b : Byte) (s : State) : State :=
  addToSum b (s.setPacket { s.packet with checksum := b, checksumReceived := true })

/-- The effect of a byte of a class. -/
def classEffect (c : ByteClass) (b : Byte) (s : State) : State :=
  match c with
  | .idleMarker => idleMarkerEffect s
  | .idleDiscard => idleDiscardEffect s
  | .lenHi => lenHiEffect b s
  | .lenLo => lenLoEffect b s
  | .typeByte => typeEffect b s
  | .idByte => idEffect b s
  | .payloadByte => payloadEffect b s
  | .cksumByte => cksumEffect b s

/-! ## The verdict -/

/-- The verdict's test (R170): "`P.length ≤ CAP` and `P.runSum = 0xFF`". -/
def verdictOk (s : State) : Bool := decide (s.packet.length.toNat ≤ s.cfg.cap) && s.packet.runSum == 0xFF

/-- The payload length a frame reports (R170, R174): `length − 2`, or 0 for a declared length of 0 or 1. -/
def reportedLen (length : Half) : Half := if 2 ≤ length.toNat then length - 2 else 0

/-- The verdict (R170): return the frame, or reject it, which resets the Packet at once (R171). -/
def verdict (s : State) : State :=
  if verdictOk s = true then s.setResult (.frame s.packet.frameType (reportedLen s.packet.length))
  else (freshen s).setResult .noFrame

/-! ## One byte -/

/-- Perform the byte's class and the counter step (R150 lines 4 and 5). -/
def byteStep (c : ByteClass) (b : Byte) (s : State) : State := counterStep (classEffect c b s)

/-- R150 line 6: the verdict where the checksum byte has arrived, else NoFrame. -/
def finish (s : State) : State := if s.packet.checksumReceived = true then verdict s else s.setResult .noFrame

/-- PUMP (R150) on the answer of one `RxRead()`. -/
def pump (answer : Option Byte) (s : State) : Host.Outcome State Fault Refusal :=
  match answer with
  | none => .next ((supersede s).setResult .noFrame)
  | some b =>
    match (supersede s).packet.stateName with
    | some st => .next (finish (byteStep (classify st b) b (supersede s)))
    | none => .refused .packetMeaningless

/-- A PUMP of byte `b` as an instruction of byte class `c`: what that PUMP does where the byte is in the class, refused
elsewhere, since the class's rule gives no effect outside its condition (R90; log entry 7). -/
def pumpClass (c : ByteClass) (b : Byte) (s : State) : Host.Outcome State Fault Refusal :=
  match (supersede s).packet.stateName with
  | some st => if classify st b = c then .next (finish (byteStep c b (supersede s))) else .refused .classCondition
  | none => .refused .packetMeaningless

/-- One PUMP per answer, in order. -/
def pumpAll : List (Option Byte) → State → Host.Outcome State Fault Refusal
  | [], s => .next s
  | a :: rest, s =>
    match pump a s with
    | .next s1 => pumpAll rest s1
    | .fault f => .fault f
    | .refused r => .refused r

/-- PARSE's loop (R180 lines 2 to 7) on the transport's answers: the test `RxAvail() > 0` and the read that follows it
are one draw (R58), so a drawn `none` ends the loop. -/
def parseLoop : List (Option Byte) → State → Host.Outcome State Fault Refusal
  | [], s => .next ((s.setRx []).setResult .noFrame)
  | none :: rest, s => .next ((s.setRx rest).setResult .noFrame)
  | some b :: rest, s =>
    match s.packet.stateName with
    | some st =>
      let s1 := byteStep (classify st b) b (s.setRx rest)
      if s1.packet.checksumReceived = true then .next (verdict s1) else parseLoop rest s1
    | none => .refused .packetMeaningless

/-! ## The instructions -/

/-- PUMP (R150). -/
def execPump (input : PumpInput) (s : State) : Host.Outcome State Fault Refusal :=
  pump (pumpOperand input s).1 (pumpOperand input s).2

/-- PARSE (R180). -/
def execParse (s : State) : Host.Outcome State Fault Refusal := parseLoop s.rx (supersede s)

/-- IDLE_MARKER (R158). -/
def execIdleMarker (s : State) : Host.Outcome State Fault Refusal := pumpClass .idleMarker Config.start s

/-- IDLE_DISCARD (R159). -/
def execIdleDiscard (b : Byte) (s : State) : Host.Outcome State Fault Refusal := pumpClass .idleDiscard b s

/-- LEN_HI (R160). -/
def execLenHi (b : Byte) (s : State) : Host.Outcome State Fault Refusal := pumpClass .lenHi b s

/-- LEN_LO (R161). -/
def execLenLo (b : Byte) (s : State) : Host.Outcome State Fault Refusal := pumpClass .lenLo b s

/-- TYPE (R162). -/
def execType (b : Byte) (s : State) : Host.Outcome State Fault Refusal := pumpClass .typeByte b s

/-- ID (R163). -/
def execId (b : Byte) (s : State) : Host.Outcome State Fault Refusal := pumpClass .idByte b s

/-- PAYLOAD (R165). -/
def execPayload (b : Byte) (s : State) : Host.Outcome State Fault Refusal := pumpClass .payloadByte b s

/-- CKSUM (R166). -/
def execCksum (b : Byte) (s : State) : Host.Outcome State Fault Refusal := pumpClass .cksumByte b s

/-- FRAME_HEAD (R81): the five head bytes are received one after another, one PUMP each. Inside a frame they are data
(R89). -/
def execFrameHead (h l t i : Byte) (s : State) : Host.Outcome State Fault Refusal :=
  pumpAll [some Config.start, some h, some l, some t, some i] s

end Sys2Proof.Machine
end

