-- ==== Sys2Proof/Machine/Control.lean ====
section
/-! DEFINITION. The control operation (43_control.md): RESET. -/

namespace Sys2Proof.Machine

/-- RESET (R200): `P <- FRESH`; the transport is not touched (R244); no view is valid afterwards and the last result
is NoFrame (R241). -/
def execReset (s : State) : Host.Outcome State Fault Refusal :=
  .next (((freshen s).setResult .noFrame).setReturned .nothing)

end Sys2Proof.Machine
end

