-- ==== Sys2Proof/Machine/Checksum.lean ====
section
/-! DEFINITION. The Checksum Generator (40_checksum.md): CHECKSUM and VERIFY. -/

namespace Sys2Proof.Machine

/-- The sum both operations take, modulo 256 (R110, R115). -/
def frameSum (t i : Byte) (payload : List Byte) : Byte := sumBytes (t :: i :: payload)

/-- The checksum byte `0xFF − sum` (R110). -/
def checksumOf (t i : Byte) (payload : List Byte) : Byte := 0xFF - frameSum t i payload

/-- Whether `sum' = 0xFF` (R112). -/
def verifyOf (t i : Byte) (payload : List Byte) (c : Byte) : Bool := frameSum t i payload + c == 0xFF

/-- CHECKSUM (R110): "No side effects; pure and deterministic." -/
def execChecksum (t i : Byte) (payload : List Byte) (s : State) : Host.Outcome State Fault Refusal :=
  .next (s.setReturned (.byte (checksumOf t i payload)))

/-- VERIFY (R112). -/
def execVerify (t i : Byte) (payload : List Byte) (c : Byte) (s : State) : Host.Outcome State Fault Refusal :=
  .next (s.setReturned (.bool (verifyOf t i payload c)))

end Sys2Proof.Machine
end

