-- ==== Sys2Proof/Machine/Encoder.lean ====
section
/-! DEFINITION. The Frame Encoder (41_encoder.md): ENCODE and ENCODE_AT. -/

namespace Sys2Proof.Machine

/-- The bytes of a frame on the wire (R80, R81, R132) for a payload of at most 65533 bytes. No byte is escaped
(R133). -/
def wireFrame (t i : Byte) (payload : List Byte) : List Byte :=
  let length : Half := BitVec.ofNat 16 (payload.length + 2)
  Config.start :: hiByte length :: loByte length :: t :: i :: (payload ++ [checksumOf t i payload])

/-- Append one whole frame to the TX stream (R132, R134), or refuse operands outside the preconditions (R131). -/
def sendFrame (t i : Byte) (payload : Except Refusal (List Byte)) (s : State) : Host.Outcome State Fault Refusal :=
  match payload with
  | .ok bytes => .next ((txWrite (wireFrame t i bytes) s).setReturned .nothing)
  | .error r => .refused r

/-- ENCODE (R130 to R134). -/
def execEncode (t i : Byte) (payload : List Byte) (n : Half) (s : State) : Host.Outcome State Fault Refusal :=
  sendFrame t i (encodePayload payload n) s

/-- ENCODE_AT (R136): a frame with the type and id of the parameters `AT_TYPE` and `AT_ID` (R137). -/
def execEncodeAt (c0 c1 : Byte) (param : List Byte) (n : Half) (s : State) : Host.Outcome State Fault Refusal :=
  sendFrame s.cfg.atType s.cfg.atId (encodeAtPayload c0 c1 param n) s

end Sys2Proof.Machine
end

