-- ==== Sys2Proof/Machine/Dispatch.lean ====
section
/-! DEFINITION. One arm per instruction. -/

namespace Sys2Proof.Machine

def exec (i : Instr) (s : State) : Host.Outcome State Fault Refusal :=
  match i with
  | .pump input => Sys2Proof.Machine.execPump input s
  | .parse => Sys2Proof.Machine.execParse s
  | .encode ft fid payload n => Sys2Proof.Machine.execEncode ft fid payload n s
  | .encodeAt c0 c1 param n => Sys2Proof.Machine.execEncodeAt c0 c1 param n s
  | .checksum ft fid payload => Sys2Proof.Machine.execChecksum ft fid payload s
  | .verify ft fid payload c => Sys2Proof.Machine.execVerify ft fid payload c s
  | .reset => Sys2Proof.Machine.execReset s
  | .idleMarker => Sys2Proof.Machine.execIdleMarker s
  | .idleDiscard b => Sys2Proof.Machine.execIdleDiscard b s
  | .lenHi b => Sys2Proof.Machine.execLenHi b s
  | .lenLo b => Sys2Proof.Machine.execLenLo b s
  | .typeByte b => Sys2Proof.Machine.execType b s
  | .idByte b => Sys2Proof.Machine.execId b s
  | .payloadByte b => Sys2Proof.Machine.execPayload b s
  | .cksumByte b => Sys2Proof.Machine.execCksum b s
  | .frameHead h l ft fid => Sys2Proof.Machine.execFrameHead h l ft fid s

end Sys2Proof.Machine
end

