-- ==== Sys2Proof/Machine/Step.lean ====
section
/-! DEFINITION. One step: perform the caller's next operation (00_scope.md R8, R9). -/

namespace Sys2Proof.Machine

/-- One step. The block "never takes a step that the caller did not invoke" (R9) and never halts (R259): with nothing
requested nothing changes (log entry 4). Otherwise the first request is taken from the queue, decoded with the
Packet's named state (R90), and performed as one atomic step (R62). -/
def step (s : State) : Host.Outcome State Fault Refusal :=
  match s.requests with
  | [] => .next s
  | r :: rest =>
    match decode s.packet.stateName r with
    | .ok i => exec i (s.setRequests rest)
    | .error e => .refused (.undecodable e)

/-- `s` with a table word's request as the next one (log entry 16). -/
def State.withFetchWord (s : State) (nbits w : Nat) : State :=
  match tableRequest nbits w with
  | some r => s.setRequests (r :: s.requests)
  | none => s

end Sys2Proof.Machine
end

