-- ==== Sys2Proof/Safety.lean ====
section
/-! DEFINITION. The terms claims use: the invariant of the reachable states (10_state.md R34), what a result delivers to
the caller, and the frames that a sequence of PUMPs or PARSEs delivers (42_assembler.md R184). -/

namespace Sys2Proof.Safety

open Sys2Proof.Machine

/-! ## The invariant of R34 -/

/-- R34 (a): a Packet that has not started is FRESH. -/
abbrev IdleIsFresh (p : Packet) : Prop := p.started = false → p = Packet.fresh

/-- R34 (b): a started Packet has counted its marker. -/
abbrev StartedCounts (p : Packet) : Prop := p.started = true → 1 ≤ p.bytesReceived

/-- R34 (c): the length before its two bytes are in. -/
abbrev LengthPartial (p : Packet) : Prop :=
  (p.bytesReceived = 1 → p.length = 0) ∧ (p.bytesReceived = 2 → loByte p.length = 0)

/-- R34 (d): how far a Packet in progress can be. -/
abbrev PositionBound (p : Packet) : Prop :=
  p.started = true → p.checksumReceived = false → 3 ≤ p.bytesReceived → p.bytesReceived ≤ max 5 (p.length.toNat + 3)

/-- R34 (f): a Packet left complete passed its verdict. -/
abbrev CompleteIsValid (s : State) : Prop :=
  s.packet.checksumReceived = true →
    s.packet.length.toNat ≤ s.cfg.cap ∧ s.packet.runSum = 0xFF ∧
      s.packet.bytesReceived = max 6 (s.packet.length.toNat + 4)

/-- R34 (g): the buffer lists exactly the indices from 2 up to the logical length, in rising order. -/
abbrev BufferExact (s : State) : Prop :=
  s.buf.map Prod.fst = List.range' 2 (bufLen s.cfg.cap s.packet - 2)

/-- R34 (e), as far as the state shows the bytes consumed: `runSum` is the sum of the type, the id, the stored payload
and the checksum byte. (Of an oversize frame the state does not hold the dropped bytes.) -/
abbrev SumExact (s : State) : Prop :=
  (s.packet.bytesReceived ≤ 3 → s.packet.runSum = 0) ∧
  (s.packet.bytesReceived = 4 → s.packet.runSum = s.packet.frameType) ∧
  (5 ≤ s.packet.bytesReceived → s.packet.length.toNat ≤ s.cfg.cap →
    s.packet.runSum = s.packet.frameType + s.packet.frameId + sumBytes (s.buf.map Prod.snd) +
      (if s.packet.checksumReceived = true then s.packet.checksum else 0))

/-- The last result is a frame exactly while the Packet is complete, and then it is that Packet's (R170, R175). -/
abbrev ResultMatches (s : State) : Prop :=
  match s.lastResult with
  | .noFrame => s.packet.checksumReceived = false
  | .frame t n => s.packet.checksumReceived = true ∧ t = s.packet.frameType ∧ n = reportedLen s.packet.length

/-- The invariant of every reachable state (R34), with the parameters in their range (R11). -/
def PacketInv (s : State) : Prop :=
  s.cfg.Ok ∧ IdleIsFresh s.packet ∧ StartedCounts s.packet ∧ LengthPartial s.packet ∧ PositionBound s.packet ∧
  CompleteIsValid s ∧ BufferExact s ∧ SumExact s ∧ ResultMatches s

/-- The Packet has a named state, so a received byte has a class: it keeps R34 (a) and (b), or is complete (the model's
choice where a complete one breaks them; U10; log entries 13 and 20). -/
abbrev Meaningful (s : State) : Prop := s.packet.stateName.isSome = true

/-! ## What the caller gets -/

/-- The `n` payload bytes behind a view (R172), those of them that have a specified value. -/
def viewBytes (s : State) (n : Nat) : List Byte := (List.range n).filterMap fun j => Memory.read s.buf (2 + j)

/-- The frame the last result delivers: its type and a copy of its payload. -/
def delivered (s : State) : Option (Byte × List Byte) :=
  match s.lastResult with
  | .noFrame => none
  | .frame t n => some (t, viewBytes s n.toNat)

/-- The frames that one PUMP per answer delivers, in order (R184). -/
def pumpFrames : List (Option Byte) → State → List (Byte × List Byte)
  | [], _ => []
  | a :: rest, s =>
    match exec (.pump (.given a)) s with
    | .next s1 => (delivered s1).toList ++ pumpFrames rest s1
    | .fault _ => []
    | .refused _ => []

/-- The frames that a number of PARSE calls deliver, in order (R184). -/
def parseFrames : Nat → State → List (Byte × List Byte)
  | 0, _ => []
  | k + 1, s =>
    match exec .parse s with
    | .next s1 => (delivered s1).toList ++ parseFrames k s1
    | .fault _ => []
    | .refused _ => []

end Sys2Proof.Safety
end

