-- ==== Sys2Proof/WellFormed.lean ====
section
/-! DEFINITION. Which instructions are well formed: the operand constraints of 30_encoding.md R93 (with 41_encoder.md
R131, R136) and the byte conditions of R90. -/

namespace Sys2Proof

/-- The operands meet the constraints the operation formats give them. -/
def Instr.wellFormed : Instr → Bool
  | .pump _ => true
  | .parse => true
  | .encode _ _ payload n => decide (n.toNat ≤ Config.encMax) && decide (n.toNat ≤ payload.length)
  | .encodeAt _ _ param n => decide (n.toNat + 2 ≤ Config.encMax) && decide (n.toNat ≤ param.length)
  | .checksum _ _ _ => true
  | .verify _ _ _ _ => true
  | .reset => true
  | .idleMarker => true
  | .idleDiscard b => b != Config.start
  | .lenHi _ => true
  | .lenLo _ => true
  | .typeByte _ => true
  | .idByte _ => true
  | .payloadByte _ => true
  | .cksumByte _ => true
  | .frameHead _ _ _ _ => true

/-- `Instr.wellFormed` as a proposition. -/
abbrev Instr.WellFormed (i : Instr) : Prop := i.wellFormed = true

end Sys2Proof
end

