-- ==== Sys2Proof/Certificates/Slice0/Obligations.lean ====
section
/-! DEFINITION. The statements for the provers, in the order of OBLIGATIONS.json. -/

open Sys2Proof Sys2Proof.Machine Sys2Proof.Safety

/-! ## Encoding -/

/-- Words written out from 30_encoding.md R94 (codes), R90 (received bytes) and R81 (frame head) decode to the
instruction they stand for. The operand bytes behind a code are the model's layout (log entry 3). -/
def Obligations.WrittenOutWordsDecode : Prop :=
  decode (some .idle) (.op 0b000 [0x01, 0x7E]) = .ok (.pump (.given (some 0x7E))) ∧
  decode (some .idle) (.op 0b001 []) = .ok .parse ∧
  decode (some .idle) (.op 0b010 [0x08, 0x01, 0x00, 0x03, 0x53, 0x44, 0x00]) =
    .ok (.encode 0x08 0x01 [0x53, 0x44, 0x00] 3) ∧
  decode (some .idle) (.op 0b100 [0x17, 0x05, 0x48, 0x69]) = .ok (.checksum 0x17 0x05 [0x48, 0x69]) ∧
  decode (some .idle) (.op 0b110 []) = .ok .reset ∧
  decode (some .idle) (.rxByte 0b01111110) = .ok .idleMarker ∧
  decode (some .idle) (.rxByte 0x41) = .ok (.idleDiscard 0x41) ∧
  decode (some .headerLengthLow) (.rxByte 0x7E) = .ok (.lenLo 0x7E) ∧
  decode (some .idle) (.wire [0b01111110, 0x00, 0x05, 0x08, 0x01]) = .ok (.frameHead 0x00 0x05 0x08 0x01) ∧
  decode (some .idle) (.op 0b111 []) = .error .unassignedCode

/-- Each operation code is its operation's, and code `111` is refused (30_encoding.md R94, the spec's decision D8: the
source gives no command port). The operand bytes and the queue are the model's (log entry 3). -/
def Obligations.OperationCodesAsAssigned : Prop :=
  (∀ st code operands i, decode st (.op code operands) = .ok i →
    (code = 0b000 ∧ ∃ x, i = .pump x) ∨ (code = 0b001 ∧ i = .parse) ∨
    (code = 0b010 ∧ ∃ t f p n, i = .encode t f p n) ∨ (code = 0b011 ∧ ∃ c0 c1 p n, i = .encodeAt c0 c1 p n) ∨
    (code = 0b100 ∧ ∃ t f p, i = .checksum t f p) ∨ (code = 0b101 ∧ ∃ t f p c, i = .verify t f p c) ∨
    (code = 0b110 ∧ i = .reset)) ∧
  (∀ x, ∃ operands, encode (.pump x) = .op 0b000 operands) ∧
  (∃ operands, encode .parse = .op 0b001 operands) ∧
  (∀ t f p n, ∃ operands, encode (.encode t f p n) = .op 0b010 operands) ∧
  (∀ c0 c1 p n, ∃ operands, encode (.encodeAt c0 c1 p n) = .op 0b011 operands) ∧
  (∀ t f p, ∃ operands, encode (.checksum t f p) = .op 0b100 operands) ∧
  (∀ t f p c, ∃ operands, encode (.verify t f p c) = .op 0b101 operands) ∧
  (∃ operands, encode .reset = .op 0b110 operands) ∧
  (∀ s operands rest, s.requests = .op 0b111 operands :: rest → step s = .refused (.undecodable .unassignedCode))

/-- Decoding an encoded instruction gives it back, for every instruction and every state of the Packet in which it can
be what its bits mean: no bit of an encoding is dropped. -/
def Obligations.DecodeInvertsEncode : Prop :=
  ∀ (i : Instr) (st : PacketState), i.AdmittedAt st → decode (some st) (encode i) = .ok i

/-- Every request that decodes is the encoding of what it decodes to, which can be there in that state: no two
requests mean the same and every operand is read. -/
def Obligations.EncodeInvertsDecode : Prop :=
  ∀ (st : PacketState) (r : Request) (i : Instr), decode (some st) r = .ok i → encode i = r ∧ i.AdmittedAt st

/-- R90: a received byte has the class of the first row that matches, in this order; the last two rows are reached with
`bytesReceived ≥ 5`; a complete Packet never reaches the table, since its byte is met after the reset of R151. -/
def Obligations.ReceivedByteClass : Prop :=
  (∀ (s : State) (b : Byte), s.packet.checksumReceived = true →
    exec (.pump (.given (some b))) s =
      exec (.pump (.given (some b))) { s with packet := Packet.fresh, buf := [] } ∧
    decode s.packet.stateName (.rxByte b) = decode Packet.fresh.stateName (.rxByte b)) ∧
  ∀ (s : State) (b : Byte), s.packet.checksumReceived = false → Meaningful s →
    decode s.packet.stateName (.rxByte b) = .ok (
      if s.packet.started = false ∧ b = 0x7E then .idleMarker
      else if s.packet.started = false then .idleDiscard b
      else if s.packet.bytesReceived = 1 then .lenHi b
      else if s.packet.bytesReceived = 2 then .lenLo b
      else if s.packet.bytesReceived = 3 then .typeByte b
      else if s.packet.bytesReceived = 4 then .idByte b
      else if s.packet.bytesReceived - 3 < s.packet.length.toNat then .payloadByte b
      else .cksumByte b) ∧
    (s.packet.started = true → s.packet.bytesReceived ≠ 1 → s.packet.bytesReceived ≠ 2 →
      s.packet.bytesReceived ≠ 3 → s.packet.bytesReceived ≠ 4 → 5 ≤ s.packet.bytesReceived)

/-! ## Step -/

/-- A step runs the decoded instruction: the request is taken from the queue and its instruction executed. Bits that
are no instruction are refused under the decoder's name for them. With nothing requested nothing changes (R9: no step
that the caller did not invoke; the queue is the model's form of the caller, log entries 3 and 4). -/
def Obligations.StepRunsDecodedInstruction : Prop :=
  (∀ (s : State) (r : Request) (rest : List Request) (i : Instr),
    s.requests = r :: rest → decode s.packet.stateName r = .ok i → step s = exec i { s with requests := rest }) ∧
  (∀ (s : State) (r : Request) (rest : List Request) (e : DecodeError),
    s.requests = r :: rest → decode s.packet.stateName r = .error e → step s = .refused (.undecodable e)) ∧
  (∀ s : State, s.requests = [] → step s = .next s)

/-! ## Checksum Generator -/

/-- R110: CHECKSUM returns `0xFF − ((typeByte + idByte + Σ payload) mod 256)` and touches nothing; its code is `100`
and its result is the last byte of the frame on the wire. -/
def Obligations.ChecksumResult : Prop :=
  ∀ (t i : Byte) (p : List Byte) (s : State), ∃ c : Byte,
    c.toNat = 255 - (t.toNat + i.toNat + (p.map BitVec.toNat).sum) % 256 ∧
    exec (.checksum t i p) s = .next { s with returned := .byte c } ∧
    (∃ operands, encode (.checksum t i p) = .op 0b100 operands) ∧
    (wireFrame t i p).getLast? = some c

/-- R112: VERIFY returns whether `(typeByte + idByte + Σ payload + checksumByte) mod 256 = 0xFF` and touches nothing;
its code is `101`. -/
def Obligations.VerifyResult : Prop :=
  ∀ (t i : Byte) (p : List Byte) (c : Byte) (s : State),
    exec (.verify t i p c) s =
      .next { s with returned := .bool (decide (
        (t.toNat + i.toNat + (p.map BitVec.toNat).sum + c.toNat) % 256 = 0xFF)) } ∧
    ∃ operands, encode (.verify t i p c) = .op 0b101 operands

/-- VERIFY accepts CHECKSUM's byte and no other, so a change of any bit of the checksum byte, the type, the id or one
payload byte is caught (40_checksum.md section 2; R113 is the spec's inference "[derived: from rules R110 and
R112]"). -/
def Obligations.VerifyAcceptsOnlyTheChecksum : Prop :=
  ∀ (t i : Byte) (p : List Byte) (s : State), ∃ c : Byte,
    exec (.checksum t i p) s = .next { s with returned := .byte c } ∧
    (∀ d : Byte, exec (.verify t i p d) s = .next { s with returned := .bool (decide (d = c)) }) ∧
    (∀ t' : Byte, t' ≠ t → exec (.verify t' i p c) s = .next { s with returned := .bool false }) ∧
    (∀ i' : Byte, i' ≠ i → exec (.verify t i' p c) s = .next { s with returned := .bool false }) ∧
    (∀ (k : Nat) (b b' : Byte), p[k]? = some b → b' ≠ b →
      exec (.verify t i (p.set k b') c) s = .next { s with returned := .bool false })

/-- The sum does not depend on the order of the bytes, so a reordered payload is not detected, and it is the sum an
accumulator takes one byte at a time (40_checksum.md section 3; R115 and R116 are the spec's inferences "[derived: from
rule R112]"). -/
def Obligations.SumIgnoresOrder : Prop :=
  ∀ (t i : Byte) (p q : List Byte) (c : Byte) (s : State),
    sumBytes (t :: i :: p) = p.foldl (· + ·) (t + i) ∧
    (p.Perm q → exec (.checksum t i p) s = exec (.checksum t i q) s ∧
      exec (.verify t i p c) s = exec (.verify t i q c) s)

/-! ## Frame Encoder -/

/-- R132, R133: under its preconditions ENCODE appends the frame, `n + 6` bytes, no byte escaped, and touches nothing
else; it returns nothing (`returned`, log entry 9). -/
def Obligations.EncodeAppendsFrame : Prop :=
  ∀ (t i : Byte) (p : List Byte) (n : Half) (s : State), n.toNat ≤ 65533 → n.toNat ≤ p.length →
    ∃ h l c : Byte,
      h.toNat * 256 + l.toNat = n.toNat + 2 ∧
      c.toNat = 255 - (t.toNat + i.toNat + ((p.take n.toNat).map BitVec.toNat).sum) % 256 ∧
      ([0x7E, h, l, t, i] ++ p.take n.toNat ++ [c]).length = n.toNat + 6 ∧
      exec (.encode t i p n) s =
        .next { s with tx := s.tx ++ ([0x7E, h, l, t, i] ++ p.take n.toNat ++ [c]), returned := .nothing }

/-- R136: under its preconditions ENCODE_AT is ENCODE with the parameters' type and id over the two command bytes and
the parameter, and appends `paramLen + 8` bytes; outside them it is refused; its code is `011`. -/
def Obligations.EncodeAtAppendsFrame : Prop :=
  (∀ (c0 c1 : Byte) (p : List Byte) (m : Half) (s : State), ¬(m.toNat + 2 ≤ 65533 ∧ m.toNat ≤ p.length) →
    ∃ r, exec (.encodeAt c0 c1 p m) s = .refused r) ∧
  (∀ c0 c1 p m, ∃ operands, encode (.encodeAt c0 c1 p m) = .op 0b011 operands) ∧
  ∀ (c0 c1 : Byte) (p : List Byte) (m : Half) (s : State), m.toNat + 2 ≤ 65533 → m.toNat ≤ p.length →
    exec (.encodeAt c0 c1 p m) s = exec (.encode s.cfg.atType s.cfg.atId (c0 :: c1 :: p.take m.toNat) (m + 2)) s ∧
    ∃ h l c : Byte,
      h.toNat * 256 + l.toNat = m.toNat + 4 ∧
      c.toNat = 255 - (s.cfg.atType.toNat + s.cfg.atId.toNat + c0.toNat + c1.toNat +
        ((p.take m.toNat).map BitVec.toNat).sum) % 256 ∧
      ([0x7E, h, l, s.cfg.atType, s.cfg.atId, c0, c1] ++ p.take m.toNat ++ [c]).length = m.toNat + 8 ∧
      exec (.encodeAt c0 c1 p m) s =
        .next { s with
          tx := s.tx ++ ([0x7E, h, l, s.cfg.atType, s.cfg.atId, c0, c1] ++ p.take m.toNat ++ [c]),
          returned := .nothing }

/-- An ENCODE or ENCODE_AT outside its preconditions is refused (41_encoder.md R131, the spec's decisions D16 and D17),
the length named first where both fail (the model's choice, log entry 14). -/
def Obligations.EncoderRefusesOutsidePreconditions : Prop :=
  (∀ (t i : Byte) (p : List Byte) (n : Half) (s : State),
    (65533 < n.toNat → exec (.encode t i p n) s = .refused .payloadTooLong) ∧
    (n.toNat ≤ 65533 → p.length < n.toNat → exec (.encode t i p n) s = .refused .payloadTooShort)) ∧
  (∀ (c0 c1 : Byte) (p : List Byte) (m : Half) (s : State),
    (65533 < m.toNat + 2 → exec (.encodeAt c0 c1 p m) s = .refused .payloadTooLong) ∧
    (m.toNat + 2 ≤ 65533 → p.length < m.toNat → exec (.encodeAt c0 c1 p m) s = .refused .payloadTooShort))

/-- The frame (R39; R135 is the spec's inference "[derived: from rule R132 and `20_memory.md rule R70`]") of ENCODE,
ENCODE_AT, CHECKSUM and VERIFY. They touch no register of the Packet, no byte of the buffer, no parameter, not the RX
stream, not the last result (so its view stays valid); CHECKSUM and VERIFY do not touch the TX stream. -/
def Obligations.EncoderAndChecksumFrame : Prop :=
  ∀ (i : Instr) (s s' : State),
    ((∃ t f p n, i = .encode t f p n) ∨ (∃ c0 c1 p n, i = .encodeAt c0 c1 p n) ∨
      (∃ t f p, i = .checksum t f p) ∨ (∃ t f p c, i = .verify t f p c)) →
    exec i s = .next s' →
    s'.packet = s.packet ∧ (∀ a, Memory.read s'.buf a = Memory.read s.buf a) ∧ s'.cfg = s.cfg ∧ s'.rx = s.rx ∧
    s'.lastResult = s.lastResult ∧ s'.requests = s.requests ∧ (∀ j, viewByte j s' = viewByte j s) ∧
    (((∃ t f p, i = .checksum t f p) ∨ (∃ t f p c, i = .verify t f p c)) → s'.tx = s.tx)

/-- An ENCODE between two assembler operations does not change what the assembler does (41_encoder.md section 1; R135 is
the spec's inference). -/
def Obligations.EncodeDoesNotDisturbAssembler : Prop :=
  ∀ (t f : Byte) (p : List Byte) (n : Half) (i : Instr) (s s1 u : State),
    i = .parse ∨ i = .reset ∨ (∃ x, i = .pump x) →
    exec (.encode t f p n) s = .next s1 → exec i s = .next u →
    ∃ u1, exec i s1 = .next u1 ∧ u1.packet = u.packet ∧ u1.buf = u.buf ∧ u1.lastResult = u.lastResult ∧
      u1.rx = u.rx ∧ u1.returned = u.returned ∧ u1.tx = s1.tx

/-! ## PUMP -/

/-- R152: PUMP with no byte answers NoFrame; a fresh or in-progress Packet and its buffer are left exactly as they
were and no later result can tell; a complete Packet is reset (with no byte too: the spec's decision D11, log entry
15), and the view handed out before is dead: a read of it is refused (R250 allows any byte too; the model's choice,
log entry 17). Also where the Packet breaks R34 (a) or (b), to which the spec gives no meaning (the model's choice,
log entry 20). -/
def Obligations.PumpNoneOnlySupersedes : Prop :=
  ∀ s : State,
    (s.packet.checksumReceived = false → ∃ t,
      exec (.pump (.given none)) s = .next t ∧ t = { s with lastResult := .noFrame, returned := .parse } ∧
      (∀ x, exec (.pump x) t = exec (.pump x) s) ∧ exec .parse t = exec .parse s ∧
      pumpFrames s.rx t = pumpFrames s.rx s) ∧
    (s.packet.checksumReceived = true → ∃ t,
      exec (.pump (.given none)) s = .next t ∧
      t = { s with packet := Packet.fresh, buf := [], lastResult := .noFrame, returned := .parse } ∧
      ∀ j, viewByte j t = .refused .viewDead)

/-- Every PUMP and every PARSE begins by resetting a complete Packet, byte or no byte (42_assembler.md R151, with the
spec's decision D11: at the start of any call); so do the byte classes and the frame head, which are PUMPs of their
bytes (log entries 7, 10). Also where the Packet breaks R34 (a) or (b), to which the spec gives no meaning (the
model's choice, log entry 20). -/
def Obligations.CompletePacketIsSuperseded : Prop :=
  ∀ (s : State) (a : Option Byte), s.packet.checksumReceived = true →
    exec (.pump (.given a)) s = exec (.pump (.given a)) { s with packet := Packet.fresh, buf := [] } ∧
    exec (.pump .read) s = exec (.pump .read) { s with packet := Packet.fresh, buf := [] } ∧
    exec .parse s = exec .parse { s with packet := Packet.fresh, buf := [] } ∧
    (∀ c b, exec (classInstr c b) s = exec (classInstr c b) { s with packet := Packet.fresh, buf := [] }) ∧
    (∀ h l t i, exec (.frameHead h l t i) s = exec (.frameHead h l t i) { s with packet := Packet.fresh, buf := [] })

/-- R57, R150 over the model's script of answers (log entries 5 and 6): a PUMP that reads the transport itself
consumes the next answer and is the PUMP of that answer; past the last answer it is the PUMP of `none`. -/
def Obligations.PumpReadConsumesOneAnswer : Prop :=
  (∀ (s : State) (a : Option Byte) (rest : List (Option Byte)), s.rx = a :: rest →
    exec (.pump .read) s = exec (.pump (.given a)) { s with rx := rest }) ∧
  (∀ s : State, s.rx = [] → exec (.pump .read) s = exec (.pump (.given none)) s)

/-- R150 line 4: the PUMP of a byte is its byte class's instruction (an instruction per byte class is the model's
choice, log entry 7). -/
def Obligations.PumpOfByteIsItsClass : Prop :=
  ∀ (s : State) (b : Byte) (i : Instr), decode s.packet.stateName (.rxByte b) = .ok i →
    exec (.pump (.given (some b))) s = exec i s

/-- The control flow of the assembler, and nothing else (42_assembler.md section 4; R177 is the spec's inference
"[derived: from rules R150 to R171]", with its decisions D5 and D7 in the verdict). Every PUMP answers. A complete
Packet that breaks R34 (a) or (b) is in Complete (the model's choice, log entry 20). -/
def Obligations.PacketStateTransitions : Prop :=
  ∀ (s : State) (st : PacketState), s.packet.stateName = some st →
    (∀ b : Byte, ∃ t, exec (.pump (.given (some b))) s = .next t ∧
      match st with
      | .idle => t.packet.stateName = some (if b = 0x7E then .headerLengthHigh else .idle) ∧ t.lastResult = .noFrame
      | .complete =>
        t.packet.stateName = some (if b = 0x7E then .headerLengthHigh else .idle) ∧ t.lastResult = .noFrame
      | .headerLengthHigh => t.packet.stateName = some .headerLengthLow ∧ t.lastResult = .noFrame
      | .headerLengthLow => t.packet.stateName = some .headerType ∧ t.lastResult = .noFrame
      | .headerType => t.packet.stateName = some .headerId ∧ t.lastResult = .noFrame
      | .headerId =>
        t.packet.stateName = some (if 2 < s.packet.length.toNat then .payload else .checksum) ∧
        t.lastResult = .noFrame
      | .payload =>
        t.packet.stateName =
          some (if s.packet.bytesReceived - 2 < s.packet.length.toNat then .payload else .checksum) ∧
        t.lastResult = .noFrame
      | .checksum =>
        if s.packet.length.toNat ≤ s.cfg.cap ∧ s.packet.runSum + b = 0xFF then
          t.packet.stateName = some .complete ∧
          ∃ n : Half, n.toNat = s.packet.length.toNat - 2 ∧ t.lastResult = .frame s.packet.frameType n
        else t.packet.stateName = some .idle ∧ t.lastResult = .noFrame) ∧
    (∃ t, exec (.pump (.given none)) s = .next t ∧
      t.packet.stateName = some (if st = .complete then .idle else st) ∧ t.lastResult = .noFrame) ∧
    (∃ t, exec .reset s = .next t ∧ t.packet.stateName = some .idle) ∧
    (st = .complete → exec .parse s = exec .parse { s with packet := Packet.fresh, buf := [] } ∧
      ({ s with packet := Packet.fresh, buf := [] } : State).packet.stateName = some .idle)

/-- Determinism (42_assembler.md section 6; R185 is the spec's inference "[derived: from rule R150]"): what PUMP makes
of the Packet, the buffer and its result depends on the Packet, the buffer, `CAP` and the operand alone. -/
def Obligations.PumpDependsOnPacketAndOperandOnly : Prop :=
  ∀ (a : Option Byte) (s u s' : State),
    u.packet = s.packet → u.buf = s.buf → u.cfg.cap = s.cfg.cap → exec (.pump (.given a)) s = .next s' →
    ∃ u', exec (.pump (.given a)) u = .next u' ∧ u'.packet = s'.packet ∧ u'.buf = s'.buf ∧
      u'.lastResult = s'.lastResult ∧ u'.returned = s'.returned

/-! ## The byte classes -/

/-- R158: the marker starts a frame; nothing else is written but the counter step's 1. -/
def Obligations.IdleMarkerStartsFrame : Prop :=
  ∀ s : State, s.packet = Packet.fresh →
    exec .idleMarker s =
      .next { s with packet := { s.packet with started := true, bytesReceived := 1 }, lastResult := .noFrame,
                     returned := .parse } ∧
    exec (.pump (.given (some 0x7E))) s = exec .idleMarker s

/-- R159: the byte is discarded, and the Packet stays FRESH. -/
def Obligations.IdleDiscardDropsByte : Prop :=
  ∀ (s : State) (b : Byte), s.packet = Packet.fresh → b ≠ 0x7E →
    exec (.idleDiscard b) s = .next { s with lastResult := .noFrame, returned := .parse } ∧
    exec (.pump (.given (some b))) s = exec (.idleDiscard b) s

/-- R160: the byte becomes the high 8 bits of `length` and the low 8 bits become 0. -/
def Obligations.LenHiSetsHighByte : Prop :=
  ∀ (s : State) (b : Byte), s.packet.started = true → s.packet.checksumReceived = false →
    s.packet.bytesReceived = 1 → ∃ L : Half, L.toNat = b.toNat * 256 ∧
    exec (.lenHi b) s =
      .next { s with packet := { s.packet with length := L, bytesReceived := 2 }, lastResult := .noFrame,
                     returned := .parse }

/-- R161: the sum modulo 65536, which is `b1 ‖ b2` where the low 8 bits were zero. -/
def Obligations.LenLoCompletesLength : Prop :=
  ∀ (s : State) (b : Byte), s.packet.started = true → s.packet.checksumReceived = false →
    s.packet.bytesReceived = 2 → ∃ L : Half,
    L.toNat = (s.packet.length.toNat + b.toNat) % 65536 ∧
    (s.packet.length.toNat % 256 = 0 → L.toNat = s.packet.length.toNat + b.toNat) ∧
    exec (.lenLo b) s =
      .next { s with packet := { s.packet with length := L, bytesReceived := 3 }, lastResult := .noFrame,
                     returned := .parse }

/-- R162: the byte becomes `frameType` and is summed, for every declared length. -/
def Obligations.TypeStoresAndSums : Prop :=
  ∀ (s : State) (b : Byte), s.packet.started = true → s.packet.checksumReceived = false →
    s.packet.bytesReceived = 3 →
    exec (.typeByte b) s =
      .next { s with packet := { s.packet with frameType := b, runSum := s.packet.runSum + b, bytesReceived := 4 },
                     lastResult := .noFrame, returned := .parse }

/-- R163: the byte becomes `frameId` and is summed. -/
def Obligations.IdStoresAndSums : Prop :=
  ∀ (s : State) (b : Byte), s.packet.started = true → s.packet.checksumReceived = false →
    s.packet.bytesReceived = 4 →
    exec (.idByte b) s =
      .next { s with packet := { s.packet with frameId := b, runSum := s.packet.runSum + b, bytesReceived := 5 },
                     lastResult := .noFrame, returned := .parse }

/-- R165: stored at index `bytesReceived − 3` only where that is below `CAP`, every other byte of the buffer as
before; dropped elsewhere; summed either way. -/
def Obligations.PayloadStoresWithinCapacity : Prop :=
  ∀ (s : State) (b : Byte), s.packet.started = true → s.packet.checksumReceived = false →
    5 ≤ s.packet.bytesReceived → s.packet.bytesReceived - 3 < s.packet.length.toNat → ∃ m : Memory,
    exec (.payloadByte b) s =
      .next { s with packet := { s.packet with runSum := s.packet.runSum + b,
                                               bytesReceived := s.packet.bytesReceived + 1 },
                     buf := m, lastResult := .noFrame, returned := .parse } ∧
    (s.packet.bytesReceived - 3 < s.cfg.cap → Memory.read m (s.packet.bytesReceived - 3) = some b) ∧
    (∀ a, (s.packet.bytesReceived - 3 < s.cfg.cap → a ≠ s.packet.bytesReceived - 3) →
      Memory.read m a = Memory.read s.buf a)

/-- R166, and the verdict of 42_assembler.md section 3 (the spec's decisions D5 and D7; D6 for a declared length below
2): the checksum byte of a frame that fits and sums to `0xFF`: the frame is returned and the Packet left complete. -/
def Obligations.CksumAcceptsValidFrame : Prop :=
  ∀ (s : State) (b : Byte), s.packet.started = true → s.packet.checksumReceived = false →
    5 ≤ s.packet.bytesReceived → s.packet.length.toNat ≤ s.packet.bytesReceived - 3 →
    s.packet.length.toNat ≤ s.cfg.cap → s.packet.runSum + b = 0xFF → ∃ n : Half,
    n.toNat = (if 2 ≤ s.packet.length.toNat then s.packet.length.toNat - 2 else 0) ∧
    exec (.cksumByte b) s =
      .next { s with packet := { s.packet with checksum := b, checksumReceived := true, runSum := 0xFF,
                                               bytesReceived := s.packet.bytesReceived + 1 },
                     lastResult := .frame s.packet.frameType n, returned := .parse }

/-- R171, and the verdict of 42_assembler.md section 3 (an oversize frame is rejected by the spec's decision D5): the
checksum byte of a frame that is too long or does not sum to `0xFF`: the Packet is reset in the same step, nothing is
returned, whatever the byte's value. -/
def Obligations.CksumRejectsInvalidFrame : Prop :=
  ∀ (s : State) (b : Byte), s.packet.started = true → s.packet.checksumReceived = false →
    5 ≤ s.packet.bytesReceived → s.packet.length.toNat ≤ s.packet.bytesReceived - 3 →
    (s.cfg.cap < s.packet.length.toNat ∨ s.packet.runSum + b ≠ 0xFF) →
    exec (.cksumByte b) s =
      .next { s with packet := Packet.fresh, buf := [], lastResult := .noFrame, returned := .parse }

/-- A byte-class instruction whose byte is not in that class in this state is refused (the model's choice, log
entry 7). -/
def Obligations.ClassOutsideItsConditionIsRefused : Prop :=
  ∀ (s : State) (st : PacketState) (c : ByteClass) (b : Byte), s.packet.stateName = some st → classify st b ≠ c →
    (c = .idleMarker → b = 0x7E) → exec (classInstr c b) s = .refused .classCondition

/-- 10_state.md section 2 (R23 is the spec's inference from the class rules): which fields of the Packet a byte class
writes, on a Packet that is not complete and unless the verdict resets it. -/
def Obligations.ClassWritesOnlyItsFields : Prop :=
  ∀ (c : ByteClass) (b : Byte) (s s' : State), s.packet.checksumReceived = false →
    exec (classInstr c b) s = .next s' →
    (c = .cksumByte ∧ s'.packet = Packet.fresh) ∨
    ((c ≠ .idleMarker → s'.packet.started = s.packet.started) ∧
      (c ≠ .lenHi → c ≠ .lenLo → s'.packet.length = s.packet.length) ∧
      (c ≠ .typeByte → s'.packet.frameType = s.packet.frameType) ∧
      (c ≠ .idByte → s'.packet.frameId = s.packet.frameId) ∧
      (c ≠ .cksumByte → s'.packet.checksumReceived = s.packet.checksumReceived) ∧
      (c ≠ .cksumByte → s'.packet.checksum = s.packet.checksum) ∧
      (c ≠ .typeByte → c ≠ .idByte → c ≠ .payloadByte → c ≠ .cksumByte → s'.packet.runSum = s.packet.runSum))

/-- The frame of the eight byte classes outside the Packet: parameters, streams and queue unchanged; on a Packet that is
not complete every byte of the buffer unchanged but the one PAYLOAD stores, unless the verdict resets the Packet. -/
def Obligations.ClassFrame : Prop :=
  ∀ (c : ByteClass) (b : Byte) (s s' : State), exec (classInstr c b) s = .next s' →
    s'.cfg = s.cfg ∧ s'.rx = s.rx ∧ s'.tx = s.tx ∧ s'.requests = s.requests ∧
    (s.packet.checksumReceived = false → c ≠ .payloadByte → c ≠ .cksumByte →
      ∀ a, Memory.read s'.buf a = Memory.read s.buf a) ∧
    (c = .payloadByte → ∀ a, (s.packet.bytesReceived - 3 < s.cfg.cap → a ≠ s.packet.bytesReceived - 3) →
      Memory.read s'.buf a = Memory.read s.buf a) ∧
    (c = .cksumByte → s'.packet ≠ Packet.fresh → ∀ a, Memory.read s'.buf a = Memory.read s.buf a)

/-- The frame of PUMP, PARSE, FRAME_HEAD and RESET outside the Packet: parameters, TX stream and queue unchanged; the
RX stream too but for what PUMP or PARSE reads from it. On a Packet that is not complete (on a complete one the reset
of R151 comes first) the buffer is unchanged outside the indices where payload bytes were stored: from 2, and from
`bytesReceived − 3`, up to the logical length after (R35; R42 with the spec's decision D20). Where the Packet was
reset, the counter being lower than before, no byte has a value (log entry 8). A PARSE that leaves the Packet fresh
may have read and rejected a whole frame, so of its buffer nothing is said. -/
def Obligations.AssemblerFrame : Prop :=
  ∀ (i : Instr) (s s' : State),
    ((∃ x, i = .pump x) ∨ i = .parse ∨ i = .reset ∨ ∃ h l t f, i = .frameHead h l t f) → exec i s = .next s' →
    s'.cfg = s.cfg ∧ s'.tx = s.tx ∧ s'.requests = s.requests ∧
    (i ≠ .parse → i ≠ .pump .read → s'.rx = s.rx) ∧ (i = .pump .read → s'.rx = s.rx.tail) ∧
    (i = .reset → ∀ a, Memory.read s'.buf a = none) ∧
    (i ≠ .reset → s.packet.checksumReceived = false →
      ((i = .parse → s'.packet ≠ Packet.fresh) → s.packet.bytesReceived ≤ s'.packet.bytesReceived →
        ∀ a, a < 2 ∨ a < s.packet.bytesReceived - 3 ∨ bufLen s.cfg.cap s'.packet ≤ a →
          Memory.read s'.buf a = Memory.read s.buf a) ∧
      (s'.packet.bytesReceived < s.packet.bytesReceived → ∀ a, Memory.read s'.buf a = none))

/-! ## FRAME_HEAD -/

/-- R81, R85, with FRAME_HEAD as five PUMPs (the model's choice, log entry 10): the five head bytes, received by an
idle assembler: the length is `H ‖ L`, type and id are stored and summed. Bits 39 to 32 of the head are `0x7E`. -/
def Obligations.FrameHeadFillsHeader : Prop :=
  ∀ (s : State) (h l t i : Byte), s.packet = Packet.fresh → ∃ L : Half, L.toNat = h.toNat * 256 + l.toNat ∧
    encode (.frameHead h l t i) = .wire [0x7E, h, l, t, i] ∧
    exec (.frameHead h l t i) s =
      .next { s with packet := { s.packet with started := true, bytesReceived := 5, length := L, frameType := t,
                                               frameId := i, runSum := t + i },
                     lastResult := .noFrame, returned := .parse }

/-- R89, with FRAME_HEAD as five PUMPs (the model's choice, log entry 10): the five bytes are consumed one by one in
every state the spec gives a meaning. Inside a frame the marker byte is data: it is in the class that the position
gives every byte there, never IDLE_MARKER, and the frame goes on by one byte, or ends at its checksum byte. -/
def Obligations.FrameHeadIsFivePumps : Prop :=
  ∀ (s : State) (h l t i : Byte), Meaningful s → ∃ s1 s2 s3 s4 s5,
    exec (.pump (.given (some 0x7E))) s = .next s1 ∧ exec (.pump (.given (some h))) s1 = .next s2 ∧
    exec (.pump (.given (some l))) s2 = .next s3 ∧ exec (.pump (.given (some t))) s3 = .next s4 ∧
    exec (.pump (.given (some i))) s4 = .next s5 ∧ exec (.frameHead h l t i) s = .next s5 ∧
    (s.packet.started = true → s.packet.checksumReceived = false → ∀ st, s.packet.stateName = some st →
      (∀ b, classify st b = classify st 0x7E) ∧ classify st 0x7E ≠ .idleMarker ∧
      exec (classInstr (classify st 0x7E) 0x7E) s = .next s1 ∧
      (s1.packet.started = true ∧ s1.packet.bytesReceived = s.packet.bytesReceived + 1 ∨
        st = .checksum ∧ s1.packet = Packet.fresh))

/-! ## PARSE -/

/-- 42_assembler.md section 5 (R180 with the spec's decision D14, and its inference R181): PARSE is PUMP of the
transport's next byte, then PARSE again, unless that byte was the checksum byte; with nothing available it is one
PUMP. -/
def Obligations.ParseIsRepeatedPump : Prop :=
  ∀ s : State, Meaningful s →
    (∀ (b : Byte) (rest : List (Option Byte)), s.rx = some b :: rest → ∃ s1, exec (.pump .read) s = .next s1 ∧
      exec .parse s = if s.packet.stateName = some .checksum then .next s1 else exec .parse s1) ∧
    (rxAvail s = 0 → exec .parse s = exec (.pump .read) s)

/-- 42_assembler.md section 6 (R186 is the spec's inference "[derived: from rule R180]"; its decision D14): PARSE always
answers; it consumes the transport's answers in order, at most the bytes available and one
`none`; what it returns is a frame exactly where it leaves the Packet complete. -/
def Obligations.ParseAnswers : Prop :=
  ∀ s : State, Meaningful s → ∃ t, exec .parse s = .next t ∧ t.returned = .parse ∧ Meaningful t ∧
    (∃ used, s.rx = used ++ t.rx ∧ used.length ≤ rxAvail s + 1) ∧
    (t.packet.checksumReceived = true ↔ ∃ f n, t.lastResult = .frame f n)

/-! ## RESET -/

/-- R200 (the spec's decision D10) and R244, with 10_state.md section 6 (the unspecified buffer is its decision D20):
RESET makes the Packet FRESH and the buffer unspecified, touches no stream, and leaves no valid view. -/
def Obligations.ResetMakesPacketFresh : Prop :=
  ∀ s : State,
    exec .reset s =
      .next { s with packet := Packet.fresh, buf := [], lastResult := .noFrame, returned := .nothing } ∧
    (∀ a : Nat, Memory.read ([] : Memory) a = none)

/-- R241: the reset value of every piece of state, and the streams not changed by a reset of the block. That no view is
valid is the spec's inference from R70, `runSum` its decision D7, the unspecified buffer its decision D20. An
unspecified buffer byte is one without a value, and a read of a dead view is refused, by the model's choice (log
entries 8 and 17). -/
def Obligations.ResetState : Prop :=
  State.reset.packet =
    { started := false, bytesReceived := 0, length := 0, frameType := 0, frameId := 0, checksumReceived := false,
      checksum := 0, runSum := 0 } ∧
  bufLen State.reset.cfg.cap State.reset.packet = 0 ∧ (∀ a, Memory.read State.reset.buf a = none) ∧
  State.reset.lastResult = .noFrame ∧ (∀ j, viewByte j State.reset = .refused .viewDead) ∧
  (∀ s t : State, exec .reset s = .next t → t.packet = State.reset.packet ∧ t.buf = State.reset.buf ∧
    t.lastResult = State.reset.lastResult ∧ t.rx = s.rx ∧ t.tx = s.tx)

/-! ## Invariants and whole-machine rules -/

/-- The invariant of 10_state.md section 5 (R34, the spec's inference from its other rules) holds at reset. -/
def Obligations.InvariantAtReset : Prop := PacketInv State.reset

/-- Every step keeps the invariant of 10_state.md section 5 (R34, the spec's inference from its other rules), from every
state that meets it. -/
def Obligations.InvariantKept : Prop := ∀ s s' : State, PacketInv s → step s = .next s' → PacketInv s'

/-- R33: a Packet in one of the named states, and so fresh, in progress or complete, stays so. A complete Packet that
breaks R34 (a) or (b) counts as complete (the model's choice, log entry 20). -/
def Obligations.PacketKeepsACondition : Prop :=
  ∀ s s' : State, Meaningful s → step s = .next s' →
    ∃ st, s'.packet.stateName = some st ∧
      (conditionOf st = .fresh ↔ s'.packet = Packet.fresh) ∧
      (conditionOf st = .complete ↔ s'.packet.checksumReceived = true) ∧
      (conditionOf st = .inProgress ↔ s'.packet.started = true ∧ s'.packet.checksumReceived = false)

/-- No step writes outside `buf[0 .. CAP)`, whatever `length` holds (R35), nor at the indices 0 and 1 (20_memory.md
section 3: R55 is the spec's inference "[derived: from `42_assembler.md rule R165` ...]"; 60_exceptions.md section 2:
R217, its decision D5). -/
def Obligations.BufferWritesStayInBounds : Prop :=
  ∀ s s' : State, step s = .next s' →
    (∀ a, a < 2 ∨ s.cfg.cap ≤ a → Memory.read s.buf a = none) →
    ∀ a, a < 2 ∨ s'.cfg.cap ≤ a → Memory.read s'.buf a = none

/-- The buffer keeps its canonical form (the model's representation of R50, log entry 8). -/
def Obligations.BufferStaysCanonical : Prop :=
  ∀ s s' : State, Memory.wf s.buf = true → step s = .next s' → Memory.wf s'.buf = true

/-- No operation changes a parameter, and at reset they have the defaults of 00_scope.md section 5 (R11, the spec's
decisions D2 and D9; held in the state by the model's choice, log entry 1). -/
def Obligations.ParametersNeverChange : Prop :=
  (∀ s s' : State, step s = .next s' → s'.cfg = s.cfg) ∧
  State.reset.cfg = { cap := 64, atType := 0x08, atId := 0x01 }

/-- R59: the TX stream only grows at its end, and only ENCODE and ENCODE_AT append to it. R57: the RX stream is
only consumed, from its front. -/
def Obligations.StreamsMoveForward : Prop :=
  ∀ (i : Instr) (s s' : State), exec i s = .next s' →
    (∃ w, s'.tx = s.tx ++ w) ∧ (∃ used, s.rx = used ++ s'.rx) ∧
    (s'.tx ≠ s.tx → (∃ t f p n, i = .encode t f p n) ∨ ∃ c0 c1 p n, i = .encodeAt c0 c1 p n) ∧
    (s'.rx ≠ s.rx → i = .pump .read ∨ i = .parse)

/-- R211: no step faults, in any state, and every operation that goes through returns what is its own to return: a
ParseResult, nothing, a byte or a boolean (`returned`, log entry 9). -/
def Obligations.OperationsReturnNormally : Prop :=
  (∀ (s : State) (f : Fault), step s ≠ .fault f) ∧
  ∀ (i : Instr) (s s' : State), exec i s = .next s' →
    match i with
    | .encode _ _ _ _ => s'.returned = .nothing
    | .encodeAt _ _ _ _ => s'.returned = .nothing
    | .reset => s'.returned = .nothing
    | .checksum _ _ _ => ∃ b, s'.returned = .byte b
    | .verify _ _ _ _ => ∃ b, s'.returned = .bool b
    | _ => s'.returned = .parse

/-- 60_exceptions.md section 1 (R212 is the spec's inference): in a meaningful state the only refusals are bits that
are no instruction and an encoder operation outside its preconditions. -/
def Obligations.OnlyPreconditionsRefuse : Prop :=
  ∀ (s : State) (r : Refusal), Meaningful s → step s = .refused r →
    r = .undecodable .unassignedCode ∨ (∃ c, r = .undecodable (.operandBytes c)) ∨
    r = .undecodable .noMarker ∨ r = .undecodable .headSize ∨
    (r = .payloadTooLong ∨ r = .payloadTooShort) ∧
      ∃ q rest i, s.requests = q :: rest ∧ decode s.packet.stateName q = .ok i ∧ ¬ i.WellFormed

/-- R27, R30: one PUMP of a byte on a Packet that is not complete adds 1 to the counter where `started` is 1 after the
byte, and otherwise leaves or makes the Packet FRESH; `started` rises only on `0x7E`, `checksumReceived` only in the
Checksum state. With the invariant the counter never exceeds 65539, so 17 bits hold it (10_state.md
section 3; R28 is the spec's inference and decision D3; log entry 2). -/
def Obligations.CounterAndFlagsPerByte : Prop :=
  (∀ s : State, PacketInv s → s.packet.bytesReceived ≤ 65539 ∧ s.packet.bytesReceived < 2 ^ 17) ∧
  ∀ (s s' : State) (b : Byte), s.packet.checksumReceived = false →
    exec (.pump (.given (some b))) s = .next s' →
    (s'.packet.started = true ∧ s'.packet.bytesReceived = s.packet.bytesReceived + 1 ∨ s'.packet = Packet.fresh) ∧
    (s.packet.started = false → s'.packet.started = true → b = 0x7E) ∧
    (s.packet.started = true → s'.packet.started = false → s.packet.stateName = some .checksum) ∧
    (s'.packet.checksumReceived = true → s.packet.stateName = some .checksum)

/-- 42_assembler.md section 3 and 60_exceptions.md section 2 (the spec's decision D5): a frame is returned only if it
fits the buffer, and only with the sum `0xFF`, in every state. -/
def Obligations.OversizeFrameNeverReturned : Prop :=
  ∀ (s s' : State) (i : Instr) (t : Byte) (n : Half),
    (∃ x, i = .pump x) ∨ i = .parse ∨ (∃ c b, i = classInstr c b) ∨ (∃ h l f g, i = .frameHead h l f g) →
    exec i s = .next s' → s'.lastResult = .frame t n →
    s'.packet.length.toNat ≤ s'.cfg.cap ∧ n.toNat ≤ s'.cfg.cap - 2 ∧ s'.packet.runSum = 0xFF ∧
      s'.packet.checksumReceived = true

/-- 42_assembler.md section 3 (R172, the spec's decisions D15 and D19): while a frame is the last result, every byte
of its view has a value, and an index past its end and a dead view are refused (the model's choice, log entry 17). -/
def Obligations.LiveViewIsReadable : Prop :=
  (∀ (s : State) (t : Byte) (n : Half), PacketInv s → s.lastResult = .frame t n →
    (∀ j, j < n.toNat → ∃ b, viewByte j s = .next b ∧ (viewBytes s n.toNat)[j]? = some b) ∧
    (∀ j, n.toNat ≤ j → viewByte j s = .refused .viewDead)) ∧
  (∀ (s : State) (j : Nat), s.lastResult = .noFrame → viewByte j s = .refused .viewDead)

/-- 42_assembler.md section 3 (R170 with the spec's decisions D5 and D7): a returned frame passes VERIFY over its
type, its id, the bytes of its view and the checksum byte as received. -/
def Obligations.ReturnedFrameVerifies : Prop :=
  ∀ (s : State) (t : Byte) (n : Half), PacketInv s → s.lastResult = .frame t n →
    exec (.verify t s.packet.frameId (viewBytes s n.toNat) s.packet.checksum) s =
      .next { s with returned := .bool true }

/-! ## Encoder and assembler together -/

/-- 41_encoder.md section 3 (R139 is the spec's inference; the oversize half its decision D5): the bytes an ENCODE
appends, received by a fresh assembler one PUMP each, give the frame back where the payload fits `CAP − 2`, are
discarded where it does not, and every earlier PUMP returns NoFrame. -/
def Obligations.RoundTrip : Prop :=
  ∀ (t i : Byte) (p : List Byte) (n : Half) (s0 s1 : State) (w : List Byte) (s : State),
    exec (.encode t i p n) s0 = .next s1 → s1.tx = s0.tx ++ w → s.packet = Packet.fresh →
    (∀ k, 0 < k → k < w.length → ∃ u, pumpAll ((w.take k).map some) s = .next u ∧ u.lastResult = .noFrame) ∧
    (n.toNat + 2 ≤ s.cfg.cap → ∃ s', pumpAll (w.map some) s = .next s' ∧ s'.lastResult = .frame t n ∧
      viewBytes s' n.toNat = p.take n.toNat ∧
      ∀ (j : Nat) (b : Byte), (p.take n.toNat)[j]? = some b → viewByte j s' = .next b) ∧
    (s.cfg.cap < n.toNat + 2 → ∃ s', pumpAll (w.map some) s = .next s' ∧ s'.lastResult = .noFrame ∧
      s'.packet = Packet.fresh)

/-- 41_encoder.md section 3 and 42_assembler.md section 5 (the spec's inferences R139, R181; decision D14): the same
by one PARSE, which leaves the bytes behind the frame in the transport. -/
def Obligations.ParseRoundTrip : Prop :=
  ∀ (t i : Byte) (p : List Byte) (n : Half) (s0 s1 : State) (w : List Byte) (rest : List (Option Byte)) (s : State),
    exec (.encode t i p n) s0 = .next s1 → s1.tx = s0.tx ++ w → s.packet = Packet.fresh →
    s.rx = w.map some ++ rest → n.toNat + 2 ≤ s.cfg.cap →
    ∃ s', exec .parse s = .next s' ∧ s'.rx = rest ∧ s'.lastResult = .frame t n ∧
      viewBytes s' n.toNat = p.take n.toNat

/-- R178: garbage without a marker delivers nothing, and the frame after it is delivered once. -/
def Obligations.ResynchronisesAfterGarbage : Prop :=
  ∀ (g : List Byte) (t i : Byte) (p : List Byte) (n : Half) (s0 s1 : State) (w : List Byte) (s : State),
    (∀ b ∈ g, b ≠ 0x7E) → exec (.encode t i p n) s0 = .next s1 → s1.tx = s0.tx ++ w → s.packet = Packet.fresh →
    n.toNat + 2 ≤ s.cfg.cap →
    pumpFrames (g.map some) s = [] ∧ pumpFrames ((g ++ w).map some) s = [(t, p.take n.toNat)]

/-- R187 (corruption rejection), R113, R171: a frame whose checksum byte was changed delivers nothing, and the next
frame is delivered. -/
def Obligations.RecoversAfterCorruptedChecksum : Prop :=
  ∀ (t i t2 i2 : Byte) (p p2 : List Byte) (n n2 : Half) (s0 s1 s2 : State) (w w2 : List Byte) (c c' : Byte)
    (s : State),
    exec (.encode t i p n) s0 = .next s1 → s1.tx = s0.tx ++ (w ++ [c]) →
    exec (.encode t2 i2 p2 n2) s1 = .next s2 → s2.tx = s1.tx ++ w2 → c' ≠ c → s.packet = Packet.fresh →
    n2.toNat + 2 ≤ s.cfg.cap →
    pumpFrames ((w ++ [c']).map some) s = [] ∧
    pumpFrames ((w ++ [c'] ++ w2).map some) s = [(t2, p2.take n2.toNat)]

/-- 42_assembler.md section 3 (R174 is the spec's decision D6; log entry 15): a declared length of 0 or 1 is a frame
with no payload. -/
def Obligations.ShortLengthIsEmptyPayload : Prop :=
  ∀ (s : State) (L t i c : Byte), s.packet = Packet.fresh → 2 ≤ s.cfg.cap → L = 0 ∨ L = 1 → ∃ s',
    pumpAll [some 0x7E, some 0, some L, some t, some i, some c] s = .next s' ∧
    if t + i + c = 0xFF then s'.lastResult = .frame t 0 ∧ s'.packet.checksumReceived = true
    else s'.lastResult = .noFrame ∧ s'.packet = Packet.fresh

/-- R152, and 42_assembler.md section 6 (R184 is the spec's inference): reads that find no byte, anywhere in between,
do not change which frames are delivered. -/
def Obligations.EmptyReadsDeliverTheSameFrames : Prop :=
  ∀ (answers : List (Option Byte)) (s : State), Meaningful s →
    pumpFrames answers s = pumpFrames (answers.filter Option.isSome) s

/-- 42_assembler.md section 6 (R184 is the spec's inference): PARSE calls over any division of the stream deliver the
frames that one PUMP per answer delivers. -/
def Obligations.ParseDeliversTheSameFrames : Prop :=
  ∀ (s : State) (k : Nat), Meaningful s → s.rx.length ≤ k → parseFrames k s = pumpFrames s.rx s
end

