-- ==== Sys2Proof/Laws/State.lean ====
section
/-! SUPPORT. What each named update leaves in each field of the state. -/

namespace Sys2Proof.Machine

@[simp] theorem State.setPacket_cfg (s : State) (p : Packet) : (s.setPacket p).cfg = s.cfg := rfl
@[simp] theorem State.setPacket_packet (s : State) (p : Packet) : (s.setPacket p).packet = p := rfl
@[simp] theorem State.setPacket_buf (s : State) (p : Packet) : (s.setPacket p).buf = s.buf := rfl
@[simp] theorem State.setPacket_rx (s : State) (p : Packet) : (s.setPacket p).rx = s.rx := rfl
@[simp] theorem State.setPacket_tx (s : State) (p : Packet) : (s.setPacket p).tx = s.tx := rfl
@[simp] theorem State.setPacket_lastResult (s : State) (p : Packet) : (s.setPacket p).lastResult = s.lastResult := rfl
@[simp] theorem State.setPacket_returned (s : State) (p : Packet) : (s.setPacket p).returned = s.returned := rfl
@[simp] theorem State.setPacket_requests (s : State) (p : Packet) : (s.setPacket p).requests = s.requests := rfl

@[simp] theorem State.setBuf_cfg (s : State) (m : Memory) : (s.setBuf m).cfg = s.cfg := rfl
@[simp] theorem State.setBuf_packet (s : State) (m : Memory) : (s.setBuf m).packet = s.packet := rfl
@[simp] theorem State.setBuf_buf (s : State) (m : Memory) : (s.setBuf m).buf = m := rfl
@[simp] theorem State.setBuf_rx (s : State) (m : Memory) : (s.setBuf m).rx = s.rx := rfl
@[simp] theorem State.setBuf_tx (s : State) (m : Memory) : (s.setBuf m).tx = s.tx := rfl
@[simp] theorem State.setBuf_lastResult (s : State) (m : Memory) : (s.setBuf m).lastResult = s.lastResult := rfl
@[simp] theorem State.setBuf_returned (s : State) (m : Memory) : (s.setBuf m).returned = s.returned := rfl
@[simp] theorem State.setBuf_requests (s : State) (m : Memory) : (s.setBuf m).requests = s.requests := rfl

@[simp] theorem State.setRx_cfg (s : State) (a : List (Option Byte)) : (s.setRx a).cfg = s.cfg := rfl
@[simp] theorem State.setRx_packet (s : State) (a : List (Option Byte)) : (s.setRx a).packet = s.packet := rfl
@[simp] theorem State.setRx_buf (s : State) (a : List (Option Byte)) : (s.setRx a).buf = s.buf := rfl
@[simp] theorem State.setRx_rx (s : State) (a : List (Option Byte)) : (s.setRx a).rx = a := rfl
@[simp] theorem State.setRx_tx (s : State) (a : List (Option Byte)) : (s.setRx a).tx = s.tx := rfl
@[simp] theorem State.setRx_lastResult (s : State) (a : List (Option Byte)) : (s.setRx a).lastResult = s.lastResult := rfl
@[simp] theorem State.setRx_returned (s : State) (a : List (Option Byte)) : (s.setRx a).returned = s.returned := rfl
@[simp] theorem State.setRx_requests (s : State) (a : List (Option Byte)) : (s.setRx a).requests = s.requests := rfl

@[simp] theorem State.setTx_cfg (s : State) (w : List Byte) : (s.setTx w).cfg = s.cfg := rfl
@[simp] theorem State.setTx_packet (s : State) (w : List Byte) : (s.setTx w).packet = s.packet := rfl
@[simp] theorem State.setTx_buf (s : State) (w : List Byte) : (s.setTx w).buf = s.buf := rfl
@[simp] theorem State.setTx_rx (s : State) (w : List Byte) : (s.setTx w).rx = s.rx := rfl
@[simp] theorem State.setTx_tx (s : State) (w : List Byte) : (s.setTx w).tx = w := rfl
@[simp] theorem State.setTx_lastResult (s : State) (w : List Byte) : (s.setTx w).lastResult = s.lastResult := rfl
@[simp] theorem State.setTx_returned (s : State) (w : List Byte) : (s.setTx w).returned = s.returned := rfl
@[simp] theorem State.setTx_requests (s : State) (w : List Byte) : (s.setTx w).requests = s.requests := rfl

@[simp] theorem State.setResult_cfg (s : State) (r : ParseResult) : (s.setResult r).cfg = s.cfg := rfl
@[simp] theorem State.setResult_packet (s : State) (r : ParseResult) : (s.setResult r).packet = s.packet := rfl
@[simp] theorem State.setResult_buf (s : State) (r : ParseResult) : (s.setResult r).buf = s.buf := rfl
@[simp] theorem State.setResult_rx (s : State) (r : ParseResult) : (s.setResult r).rx = s.rx := rfl
@[simp] theorem State.setResult_tx (s : State) (r : ParseResult) : (s.setResult r).tx = s.tx := rfl
@[simp] theorem State.setResult_lastResult (s : State) (r : ParseResult) : (s.setResult r).lastResult = r := rfl
@[simp] theorem State.setResult_returned (s : State) (r : ParseResult) : (s.setResult r).returned = .parse := rfl
@[simp] theorem State.setResult_requests (s : State) (r : ParseResult) : (s.setResult r).requests = s.requests := rfl

@[simp] theorem State.setReturned_cfg (s : State) (v : Returned) : (s.setReturned v).cfg = s.cfg := rfl
@[simp] theorem State.setReturned_packet (s : State) (v : Returned) : (s.setReturned v).packet = s.packet := rfl
@[simp] theorem State.setReturned_buf (s : State) (v : Returned) : (s.setReturned v).buf = s.buf := rfl
@[simp] theorem State.setReturned_rx (s : State) (v : Returned) : (s.setReturned v).rx = s.rx := rfl
@[simp] theorem State.setReturned_tx (s : State) (v : Returned) : (s.setReturned v).tx = s.tx := rfl
@[simp] theorem State.setReturned_lastResult (s : State) (v : Returned) : (s.setReturned v).lastResult = s.lastResult := rfl
@[simp] theorem State.setReturned_returned (s : State) (v : Returned) : (s.setReturned v).returned = v := rfl
@[simp] theorem State.setReturned_requests (s : State) (v : Returned) : (s.setReturned v).requests = s.requests := rfl

@[simp] theorem State.setRequests_cfg (s : State) (q : List Request) : (s.setRequests q).cfg = s.cfg := rfl
@[simp] theorem State.setRequests_packet (s : State) (q : List Request) : (s.setRequests q).packet = s.packet := rfl
@[simp] theorem State.setRequests_buf (s : State) (q : List Request) : (s.setRequests q).buf = s.buf := rfl
@[simp] theorem State.setRequests_rx (s : State) (q : List Request) : (s.setRequests q).rx = s.rx := rfl
@[simp] theorem State.setRequests_tx (s : State) (q : List Request) : (s.setRequests q).tx = s.tx := rfl
@[simp] theorem State.setRequests_lastResult (s : State) (q : List Request) : (s.setRequests q).lastResult = s.lastResult := rfl
@[simp] theorem State.setRequests_returned (s : State) (q : List Request) : (s.setRequests q).returned = s.returned := rfl
@[simp] theorem State.setRequests_requests (s : State) (q : List Request) : (s.setRequests q).requests = q := rfl

@[simp] theorem freshen_cfg (s : State) : (freshen s).cfg = s.cfg := rfl
@[simp] theorem freshen_packet (s : State) : (freshen s).packet = Packet.fresh := rfl
@[simp] theorem freshen_buf (s : State) : (freshen s).buf = [] := rfl
@[simp] theorem freshen_rx (s : State) : (freshen s).rx = s.rx := rfl
@[simp] theorem freshen_tx (s : State) : (freshen s).tx = s.tx := rfl
@[simp] theorem freshen_lastResult (s : State) : (freshen s).lastResult = s.lastResult := rfl
@[simp] theorem freshen_returned (s : State) : (freshen s).returned = s.returned := rfl
@[simp] theorem freshen_requests (s : State) : (freshen s).requests = s.requests := rfl

@[simp] theorem txWrite_cfg (w : List Byte) (s : State) : (txWrite w s).cfg = s.cfg := rfl
@[simp] theorem txWrite_packet (w : List Byte) (s : State) : (txWrite w s).packet = s.packet := rfl
@[simp] theorem txWrite_buf (w : List Byte) (s : State) : (txWrite w s).buf = s.buf := rfl
@[simp] theorem txWrite_rx (w : List Byte) (s : State) : (txWrite w s).rx = s.rx := rfl
@[simp] theorem txWrite_tx (w : List Byte) (s : State) : (txWrite w s).tx = s.tx ++ w := rfl
@[simp] theorem txWrite_lastResult (w : List Byte) (s : State) : (txWrite w s).lastResult = s.lastResult := rfl
@[simp] theorem txWrite_returned (w : List Byte) (s : State) : (txWrite w s).returned = s.returned := rfl
@[simp] theorem txWrite_requests (w : List Byte) (s : State) : (txWrite w s).requests = s.requests := rfl

@[simp] theorem memWrite_cfg (i : Nat) (b : Byte) (s : State) : (memWrite i b s).cfg = s.cfg := rfl
@[simp] theorem memWrite_packet (i : Nat) (b : Byte) (s : State) : (memWrite i b s).packet = s.packet := rfl
@[simp] theorem memWrite_buf (i : Nat) (b : Byte) (s : State) : (memWrite i b s).buf = Memory.write s.buf i b := rfl
@[simp] theorem memWrite_rx (i : Nat) (b : Byte) (s : State) : (memWrite i b s).rx = s.rx := rfl
@[simp] theorem memWrite_tx (i : Nat) (b : Byte) (s : State) : (memWrite i b s).tx = s.tx := rfl
@[simp] theorem memWrite_lastResult (i : Nat) (b : Byte) (s : State) : (memWrite i b s).lastResult = s.lastResult := rfl
@[simp] theorem memWrite_returned (i : Nat) (b : Byte) (s : State) : (memWrite i b s).returned = s.returned := rfl
@[simp] theorem memWrite_requests (i : Nat) (b : Byte) (s : State) : (memWrite i b s).requests = s.requests := rfl

@[simp] theorem Packet.fresh_started : Packet.fresh.started = false := rfl
@[simp] theorem Packet.fresh_bytesReceived : Packet.fresh.bytesReceived = 0 := rfl
@[simp] theorem Packet.fresh_length : Packet.fresh.length = 0 := rfl
@[simp] theorem Packet.fresh_frameType : Packet.fresh.frameType = 0 := rfl
@[simp] theorem Packet.fresh_frameId : Packet.fresh.frameId = 0 := rfl
@[simp] theorem Packet.fresh_checksumReceived : Packet.fresh.checksumReceived = false := rfl
@[simp] theorem Packet.fresh_checksum : Packet.fresh.checksum = 0 := rfl
@[simp] theorem Packet.fresh_runSum : Packet.fresh.runSum = 0 := rfl

end Sys2Proof.Machine
end

