-- ==== Sys2Proof/Laws/Flags.lean ====
section
/-! SUPPORT. What the named state says of the Packet, and all the counter step and the supersede step can do. -/

namespace Sys2Proof.Machine

/-! ## The named state -/

@[simp] theorem stateName_fresh : Packet.fresh.stateName = some .idle := rfl

/-- A complete Packet is the state Complete, whatever else it holds. -/
theorem stateName_complete (p : Packet) (h : p.checksumReceived = true) : p.stateName = some .complete := by
  simp [Packet.stateName, h]

theorem stateName_eq_complete (p : Packet) : p.stateName = some .complete ↔ p.checksumReceived = true := by
  refine ⟨fun h => ?_, stateName_complete p⟩
  by_contra hc
  unfold Packet.stateName at h
  rw [if_neg hc] at h
  split_ifs at h <;> cases h

/-- Idle is the FRESH Packet and nothing else. -/
theorem stateName_eq_idle (p : Packet) : p.stateName = some .idle ↔ p = Packet.fresh := by
  constructor
  · intro h; unfold Packet.stateName at h; split_ifs at h <;> first | assumption | cases h
  · rintro rfl; rfl

/-- The named state of a Packet in progress is read off its counter. -/
theorem stateName_started (p : Packet) (hs : p.started = true) (hc : p.checksumReceived = false) :
    p.stateName =
      if p.bytesReceived = 0 then none
      else if p.bytesReceived = 1 then some .headerLengthHigh
      else if p.bytesReceived = 2 then some .headerLengthLow
      else if p.bytesReceived = 3 then some .headerType
      else if p.bytesReceived = 4 then some .headerId
      else if p.bytesReceived - 3 < p.length.toNat then some .payload
      else some .checksum := by
  simp [Packet.stateName, hs, hc]

/-- What each named state but Complete says of the Packet's key (R32). -/
theorem stateName_key (p : Packet) (st : PacketState) (h : p.stateName = some st) (hne : st ≠ .complete) :
    p.checksumReceived = false ∧
      ((st = .idle ∧ p = Packet.fresh) ∨
        p.started = true ∧
          ((st = .headerLengthHigh ∧ p.bytesReceived = 1) ∨ (st = .headerLengthLow ∧ p.bytesReceived = 2) ∨
            (st = .headerType ∧ p.bytesReceived = 3) ∨ (st = .headerId ∧ p.bytesReceived = 4) ∨
            (st = .payload ∧ 5 ≤ p.bytesReceived ∧ p.bytesReceived - 3 < p.length.toNat) ∨
            (st = .checksum ∧ 5 ≤ p.bytesReceived ∧ p.length.toNat ≤ p.bytesReceived - 3))) := by
  unfold Packet.stateName at h
  by_cases h0 : p.checksumReceived = true
  · rw [if_pos h0] at h; injection h with h; exact absurd h.symm hne
  · refine ⟨by simpa using h0, ?_⟩
    rw [if_neg h0] at h
    by_cases h1 : p.started = true
    · rw [if_pos h1] at h
      refine .inr ⟨h1, ?_⟩
      split_ifs at h <;> injection h with h <;> subst h <;> simp <;> omega
    · rw [if_neg h1] at h
      split_ifs at h with h2
      injection h with h
      exact .inl ⟨h.symm, h2⟩

/-! ## The supersede step -/

/-- On a Packet that is fresh or in progress the supersede step does nothing (R151). -/
theorem supersede_of_not_complete (s : State) (h : s.packet.checksumReceived = false) : supersede s = s := by
  simp [supersede, h]

/-- On a complete Packet it is `P <- FRESH` (R151). -/
theorem supersede_of_complete (s : State) (h : s.packet.checksumReceived = true) : supersede s = freshen s := by
  simp [supersede, h]

@[simp] theorem supersede_cfg (s : State) : (supersede s).cfg = s.cfg := by unfold supersede; split <;> rfl
@[simp] theorem supersede_rx (s : State) : (supersede s).rx = s.rx := by unfold supersede; split <;> rfl
@[simp] theorem supersede_tx (s : State) : (supersede s).tx = s.tx := by unfold supersede; split <;> rfl
@[simp] theorem supersede_lastResult (s : State) : (supersede s).lastResult = s.lastResult := by
  unfold supersede; split <;> rfl
@[simp] theorem supersede_returned (s : State) : (supersede s).returned = s.returned := by
  unfold supersede; split <;> rfl
@[simp] theorem supersede_requests (s : State) : (supersede s).requests = s.requests := by
  unfold supersede; split <;> rfl

/-- After the supersede step no Packet is complete. -/
@[simp] theorem supersede_not_complete (s : State) : (supersede s).packet.checksumReceived = false := by
  by_cases h : s.packet.checksumReceived = true
  · rw [supersede_of_complete s h]; rfl
  · simp only [Bool.not_eq_true] at h; rw [supersede_of_not_complete s h, h]

/-- The supersede step keeps a Packet meaningful. -/
theorem supersede_stateName (s : State) :
    (supersede s).packet.stateName =
      if s.packet.checksumReceived = true then some .idle else s.packet.stateName := by
  unfold supersede
  split <;> simp

/-! ## The counter step -/

/-- The counter step is the identity, or adds 1 to the counter and changes nothing else (R167). -/
theorem counterStep_cases (s : State) :
    (s.packet.started = false ∧ counterStep s = s) ∨
      (s.packet.started = true ∧
        counterStep s = s.setPacket { s.packet with bytesReceived := s.packet.bytesReceived + 1 }) := by
  unfold counterStep
  by_cases h : s.packet.started = true <;> simp [h]

@[simp] theorem counterStep_cfg (s : State) : (counterStep s).cfg = s.cfg := by unfold counterStep; split <;> rfl
@[simp] theorem counterStep_buf (s : State) : (counterStep s).buf = s.buf := by unfold counterStep; split <;> rfl
@[simp] theorem counterStep_rx (s : State) : (counterStep s).rx = s.rx := by unfold counterStep; split <;> rfl
@[simp] theorem counterStep_tx (s : State) : (counterStep s).tx = s.tx := by unfold counterStep; split <;> rfl
@[simp] theorem counterStep_requests (s : State) : (counterStep s).requests = s.requests := by
  unfold counterStep; split <;> rfl

end Sys2Proof.Machine
end

