-- ==== Sys2Proof/Laws/Memory.lean ====
section
/-! SUPPORT. The laws of the byte store: a read after a write, and that every operation keeps the canonical form. -/

namespace Sys2Proof.Machine

@[simp] theorem Memory.read_nil (i : Nat) : Memory.read [] i = none := rfl

/-- A read of the index written gives the byte written. -/
@[simp] theorem Memory.read_write_same (m : Memory) (i : Nat) (b : Byte) :
    Memory.read (Memory.write m i b) i = some b := by
  induction m with
  | nil => simp [Memory.write, Memory.read]
  | cons c rest ih =>
    obtain ⟨a, x⟩ := c
    by_cases h1 : i < a
    · simp [Memory.write, Memory.read, h1]
    · by_cases h2 : i = a
      · simp [Memory.write, Memory.read, h2]
      · simp [Memory.write, Memory.read, h1, h2, ih, Ne.symm h2]

/-- A read of any other index is as before. -/
theorem Memory.read_write_other (m : Memory) (i j : Nat) (b : Byte) (h : j ≠ i) :
    Memory.read (Memory.write m i b) j = Memory.read m j := by
  induction m with
  | nil => simp [Memory.write, Memory.read, Ne.symm h]
  | cons c rest ih =>
    obtain ⟨a, x⟩ := c
    by_cases h1 : i < a
    · simp [Memory.write, Memory.read, h1, Ne.symm h]
    · by_cases h2 : i = a
      · subst h2; simp [Memory.write, Memory.read, Ne.symm h]
      · simp [Memory.write, Memory.read, h1, h2, ih]

/-- Where the canonical form holds, every cell behind the first has a greater index. -/
theorem Memory.wf_cons (a : Nat) (x : Byte) (rest : Memory) :
    Memory.wf ((a, x) :: rest) = true ↔ (∀ c ∈ rest, a < c.1) ∧ Memory.wf rest = true := by
  induction rest generalizing a x with
  | nil => simp [Memory.wf]
  | cons c rest ih =>
    obtain ⟨b, y⟩ := c
    simp only [Memory.wf, Bool.and_eq_true, decide_eq_true_eq, List.mem_cons, forall_eq_or_imp, ih]
    constructor
    · rintro ⟨hab, hb, hw⟩
      exact ⟨⟨hab, fun c hc => hab.trans (hb c hc)⟩, hb, hw⟩
    · rintro ⟨⟨hab, _⟩, hb, hw⟩
      exact ⟨hab, hb, hw⟩

/-- The cells after a write: the one written, or cells that were there. -/
theorem Memory.mem_write (m : Memory) (i : Nat) (b : Byte) (c : Host.Cell) (h : c ∈ Memory.write m i b) :
    c = (i, b) ∨ c ∈ m := by
  induction m with
  | nil => simpa [Memory.write] using h
  | cons d rest ih =>
    obtain ⟨a, x⟩ := d
    simp only [Memory.write] at h
    split_ifs at h
    · rcases List.mem_cons.1 h with h | h
      · exact .inl h
      · exact .inr h
    · rcases List.mem_cons.1 h with h | h
      · exact .inl h
      · exact .inr (List.mem_cons_of_mem _ h)
    · rcases List.mem_cons.1 h with h | h
      · exact .inr (h ▸ List.mem_cons_self)
      · exact (ih h).imp id (List.mem_cons_of_mem _)

/-- A write keeps the canonical form. -/
theorem Memory.wf_write (m : Memory) (i : Nat) (b : Byte) (h : Memory.wf m = true) :
    Memory.wf (Memory.write m i b) = true := by
  induction m with
  | nil => rfl
  | cons d rest ih =>
    obtain ⟨a, x⟩ := d
    obtain ⟨hlt, hw⟩ := (Memory.wf_cons a x rest).1 h
    simp only [Memory.write]
    split_ifs with h1 h2
    · exact (Memory.wf_cons _ _ _).2 ⟨by
        intro c hc
        rcases List.mem_cons.1 hc with rfl | hc
        · exact h1
        · exact h1.trans (hlt c hc), h⟩
    · subst h2; exact (Memory.wf_cons _ _ _).2 ⟨hlt, hw⟩
    · refine (Memory.wf_cons _ _ _).2 ⟨?_, ih hw⟩
      intro c hc
      rcases Memory.mem_write rest i b c hc with rfl | hc
      · change a < i; omega
      · exact hlt c hc

/-- `MemWrite` keeps the canonical form. -/
theorem memWrite_wf (i : Nat) (b : Byte) (s : State) (h : Memory.wf s.buf = true) :
    Memory.wf (memWrite i b s).buf = true :=
  Memory.wf_write s.buf i b h

/-- `P <- FRESH` leaves the empty store, which is canonical. -/
theorem freshen_wf (s : State) : Memory.wf (freshen s).buf = true := rfl

/-- The store at reset is canonical. -/
theorem reset_wf : Memory.wf State.reset.buf = true := rfl

/-- `MemRead` gives a byte only below `CAP`, and then the byte the store holds. -/
theorem memRead_next (i : Nat) (s : State) (b : Byte) (h : memRead i s = .next b) :
    i < s.cfg.cap ∧ Memory.read s.buf i = some b := by
  unfold memRead at h
  split at h
  · rename_i hi
    split at h
    · rename_i b' hb; injection h with h; exact ⟨hi, h ▸ hb⟩
    · cases h
  · cases h

end Sys2Proof.Machine
end

