-- ==== Sys2Proof/Laws/Assembler.lean ====
section
/-! SUPPORT. All that the byte classes, the verdict and a PUMP can do, said once each. -/

namespace Sys2Proof.Machine

/-! ## The byte classes -/

/-- No class touches anything but the Packet and the buffer. -/
theorem classEffect_frame (c : ByteClass) (b : Byte) (s : State) :
    (classEffect c b s).cfg = s.cfg ∧ (classEffect c b s).rx = s.rx ∧ (classEffect c b s).tx = s.tx ∧
      (classEffect c b s).lastResult = s.lastResult ∧ (classEffect c b s).returned = s.returned ∧
      (classEffect c b s).requests = s.requests := by
  cases c <;>
    simp [classEffect, idleMarkerEffect, idleDiscardEffect, lenHiEffect, lenLoEffect, typeEffect, idEffect,
      payloadEffect, cksumEffect, addToSum]
  split <;> simp

/-- Only PAYLOAD writes the buffer. -/
theorem classEffect_buf (c : ByteClass) (b : Byte) (s : State) (h : c ≠ .payloadByte) :
    (classEffect c b s).buf = s.buf := by
  cases c <;> first | exact absurd rfl h | rfl

/-- PAYLOAD stores its byte at index `bytesReceived − 3` where that is below `CAP`, and drops it elsewhere (R165). -/
theorem payloadEffect_buf (b : Byte) (s : State) :
    (payloadEffect b s).buf =
      if s.packet.bytesReceived - 3 < s.cfg.cap then Memory.write s.buf (s.packet.bytesReceived - 3) b
      else s.buf := by
  simp only [payloadEffect, addToSum, State.setPacket_buf]
  split <;> rfl

/-- PAYLOAD's effect on the Packet is on the running sum alone. -/
theorem payloadEffect_packet (b : Byte) (s : State) :
    (payloadEffect b s).packet = { s.packet with runSum := s.packet.runSum + b } := by
  simp only [payloadEffect, addToSum, State.setPacket_packet]
  split <;> rfl

/-- Only CKSUM sets `checksumReceived` (R30). -/
theorem classEffect_checksumReceived (c : ByteClass) (b : Byte) (s : State) :
    (classEffect c b s).packet.checksumReceived = (decide (c = .cksumByte) || s.packet.checksumReceived) := by
  cases c <;> first | rfl | (simp [classEffect, payloadEffect_packet])

/-- Only IDLE_MARKER sets `started` (R30). -/
theorem classEffect_started (c : ByteClass) (b : Byte) (s : State) :
    (classEffect c b s).packet.started = (decide (c = .idleMarker) || s.packet.started) := by
  cases c <;> first | rfl | (simp [classEffect, payloadEffect_packet])

/-! ## The verdict -/

/-- The verdict leaves everything but the result, or resets the Packet (R170, R171). -/
theorem verdict_cases (s : State) :
    (s.packet.length.toNat ≤ s.cfg.cap ∧ s.packet.runSum = 0xFF ∧
        verdict s = s.setResult (.frame s.packet.frameType (reportedLen s.packet.length))) ∨
      (¬(s.packet.length.toNat ≤ s.cfg.cap ∧ s.packet.runSum = 0xFF) ∧
        verdict s = (freshen s).setResult .noFrame) := by
  by_cases h : s.packet.length.toNat ≤ s.cfg.cap ∧ s.packet.runSum = 0xFF
  · exact .inl ⟨h.1, h.2, by simp [verdict, verdictOk, h.1, h.2]⟩
  · exact .inr ⟨h, by
      have : verdictOk s = false := by
        simp only [verdictOk, Bool.and_eq_false_iff, decide_eq_false_iff_not, beq_eq_false_iff_ne]
        by_contra hn
        push Not at hn
        exact h hn
      simp [verdict, this]⟩

/-- The length a frame reports is `length − 2`, cut off at 0 (R170, R174). -/
theorem reportedLen_toNat (l : Half) : (reportedLen l).toNat = l.toNat - 2 := by
  unfold reportedLen
  split
  · have := l.isLt
    have h2 : (2 : Half).toNat = 2 := rfl
    rw [BitVec.toNat_sub, h2]; omega
  · simp; omega

/-- What the end of a byte step does: the verdict where the checksum byte is in, else NoFrame (R150). -/
theorem finish_cases (s : State) :
    (s.packet.checksumReceived = true ∧ finish s = verdict s) ∨
      (s.packet.checksumReceived = false ∧ finish s = s.setResult .noFrame) := by
  unfold finish
  by_cases h : s.packet.checksumReceived = true <;> simp [h]

/-! ## What the byte classes do not look at

The classes, the counter step and the verdict do not depend on the last result, on what was returned, or on the RX
stream: an update of those commutes with them. -/

theorem payloadEffect_setResult (b : Byte) (s : State) (r : ParseResult) :
    payloadEffect b (s.setResult r) = (payloadEffect b s).setResult r := by
  by_cases h : s.packet.bytesReceived - 3 < s.cfg.cap <;>
    simp only [payloadEffect, State.setResult_packet, State.setResult_cfg, h, if_true, if_false] <;> rfl

theorem payloadEffect_setRx (b : Byte) (s : State) (answers : List (Option Byte)) :
    payloadEffect b (s.setRx answers) = (payloadEffect b s).setRx answers := by
  by_cases h : s.packet.bytesReceived - 3 < s.cfg.cap <;>
    simp only [payloadEffect, State.setRx_packet, State.setRx_cfg, h, if_true, if_false] <;> rfl

theorem byteStep_setResult (c : ByteClass) (b : Byte) (s : State) (r : ParseResult) :
    byteStep c b (s.setResult r) = (byteStep c b s).setResult r := by
  have e : classEffect c b (s.setResult r) = (classEffect c b s).setResult r := by
    cases c <;> first | rfl | exact payloadEffect_setResult b s r
  unfold byteStep counterStep
  rw [e]
  by_cases h : (classEffect c b s).packet.started = true <;> simp only [State.setResult_packet, h] <;> rfl

theorem byteStep_setRx (c : ByteClass) (b : Byte) (s : State) (answers : List (Option Byte)) :
    byteStep c b (s.setRx answers) = (byteStep c b s).setRx answers := by
  have e : classEffect c b (s.setRx answers) = (classEffect c b s).setRx answers := by
    cases c <;> first | rfl | exact payloadEffect_setRx b s answers
  unfold byteStep counterStep
  rw [e]
  by_cases h : (classEffect c b s).packet.started = true <;> simp only [State.setRx_packet, h] <;> rfl

theorem verdict_setResult (s : State) (r : ParseResult) : verdict (s.setResult r) = verdict s := by
  unfold verdict
  by_cases h : verdictOk s = true
  · rw [if_pos h, if_pos (show verdictOk (s.setResult r) = true from h)]; rfl
  · rw [if_neg h, if_neg (show ¬verdictOk (s.setResult r) = true from h)]; rfl

theorem supersede_setRx (s : State) (answers : List (Option Byte)) :
    supersede (s.setRx answers) = (supersede s).setRx answers := by
  unfold supersede
  by_cases h : s.packet.checksumReceived = true <;> simp only [State.setRx_packet, h] <;> rfl

/-- The byte step completes a Packet exactly where it is a CKSUM byte (R166). -/
theorem byteStep_checksumReceived (c : ByteClass) (b : Byte) (s : State) :
    (byteStep c b s).packet.checksumReceived = (decide (c = .cksumByte) || s.packet.checksumReceived) := by
  rw [← classEffect_checksumReceived c b s]
  unfold byteStep counterStep
  by_cases h : (classEffect c b s).packet.started = true <;> simp [h]

/-- A byte is CKSUM exactly in the Checksum state. -/
theorem classify_eq_cksumByte (st : PacketState) (b : Byte) : classify st b = .cksumByte ↔ st = .checksum := by
  cases st <;> simp [classify] <;> split <;> simp

/-- PARSE's loop overwrites the last result, whatever it was. -/
theorem parseLoop_setResult (answers : List (Option Byte)) (s : State) (r : ParseResult) :
    parseLoop answers (s.setResult r) = parseLoop answers s := by
  induction answers generalizing s with
  | nil => rfl
  | cons a rest ih =>
    cases a with
    | none => rfl
    | some b =>
      have e : ∀ c, byteStep c b ((s.setResult r).setRx rest) = (byteStep c b (s.setRx rest)).setResult r :=
        fun c => byteStep_setResult c b (s.setRx rest) r
      simp only [parseLoop, State.setResult_packet, e, verdict_setResult, ih]

/-! ## PUMP -/

/-- Everything a PUMP can answer (R150). -/
theorem pump_next (a : Option Byte) (s s' : State) (h : pump a s = .next s') :
    (a = none ∧ s' = (supersede s).setResult .noFrame) ∨
      ∃ b st, a = some b ∧ (supersede s).packet.stateName = some st ∧
        s' = finish (byteStep (classify st b) b (supersede s)) := by
  cases a with
  | none => simp only [pump] at h; injection h with h; exact .inl ⟨rfl, h.symm⟩
  | some b =>
    simp only [pump] at h
    split at h
    · rename_i st hst; injection h with h; exact .inr ⟨b, st, rfl, hst, h.symm⟩
    · cases h

/-- A PUMP refuses only a byte that reaches a Packet without a meaning, and never faults. -/
theorem pump_refused (a : Option Byte) (s : State) (r : Refusal) (h : pump a s = .refused r) :
    r = .packetMeaningless ∧ (supersede s).packet.stateName = none := by
  cases a with
  | none => cases h
  | some b =>
    simp only [pump] at h
    split at h
    · cases h
    · rename_i hn; injection h with h; exact ⟨h.symm, hn⟩

theorem pump_not_fault (a : Option Byte) (s : State) (f : Fault) : pump a s ≠ .fault f := by
  intro h
  cases a with
  | none => cases h
  | some b => simp only [pump] at h; split at h <;> cases h

/-- Where a byte is in a class, the class's instruction is the PUMP of that byte. -/
theorem pumpClass_eq_pump (c : ByteClass) (b : Byte) (s : State) (st : PacketState)
    (hst : (supersede s).packet.stateName = some st) (hc : classify st b = c) :
    pumpClass c b s = pump (some b) s := by
  subst hc; simp [pumpClass, pump, hst]

/-- One PUMP per answer: a sequence may be cut anywhere. -/
theorem pumpAll_append (xs ys : List (Option Byte)) (s : State) :
    pumpAll (xs ++ ys) s =
      match pumpAll xs s with
      | .next s1 => pumpAll ys s1
      | .fault f => .fault f
      | .refused r => .refused r := by
  induction xs generalizing s with
  | nil => rfl
  | cons a rest ih =>
    simp only [List.cons_append, pumpAll]
    cases pump a s <;> simp [ih]

end Sys2Proof.Machine
end

