-- ==== Sys2Proof/Laws/Decode.lean ====
section
/-! SUPPORT. The byte fields of a 16-bit length, and what each operation code decodes to. -/

namespace Sys2Proof

theorem hiByte_toNat (v : Half) : (hiByte v).toNat = v.toNat / 256 := by
  have := v.isLt
  simp [hiByte, Nat.shiftRight_eq_div_pow]; omega

theorem loByte_toNat (v : Half) : (loByte v).toNat = v.toNat % 256 := by simp [loByte]

/-- `h ‖ l` as a number (R51, R85). -/
theorem joinBytes_toNat (h l : Byte) : (joinBytes h l).toNat = h.toNat * 256 + l.toNat := by
  have hl := l.isLt
  unfold joinBytes
  rw [BitVec.toNat_append, ← Nat.shiftLeft_add_eq_or_of_lt (by omega), Nat.shiftLeft_eq]

@[simp] theorem joinBytes_hiByte_loByte (v : Half) : joinBytes (hiByte v) (loByte v) = v := by
  apply BitVec.eq_of_toNat_eq
  rw [joinBytes_toNat, hiByte_toNat, loByte_toNat]; omega

@[simp] theorem hiByte_joinBytes (h l : Byte) : hiByte (joinBytes h l) = h := by
  have hl := l.isLt
  apply BitVec.eq_of_toNat_eq
  rw [hiByte_toNat, joinBytes_toNat]; omega

@[simp] theorem loByte_joinBytes (h l : Byte) : loByte (joinBytes h l) = l := by
  have hl := l.isLt
  apply BitVec.eq_of_toNat_eq
  rw [loByte_toNat, joinBytes_toNat]; omega

/-- Bits under an operation code that decode do so by that code's operation (R94). -/
theorem decodeOp_cases (code : BitVec 3) (operands : List Byte) (i : Instr) (h : decodeOp code operands = .ok i) :
    (code = 0b000 ∧ decodePump operands = .ok i) ∨ (code = 0b001 ∧ decodeParse operands = .ok i) ∨
    (code = 0b010 ∧ decodeEncode operands = .ok i) ∨ (code = 0b011 ∧ decodeEncodeAt operands = .ok i) ∨
    (code = 0b100 ∧ decodeChecksum operands = .ok i) ∨ (code = 0b101 ∧ decodeVerify operands = .ok i) ∨
    (code = 0b110 ∧ decodeReset operands = .ok i) := by
  have hc : ∀ k : Nat, k < 8 → code.toNat = k → code = BitVec.ofNat 3 k := by
    intro k _ hk; apply BitVec.eq_of_toNat_eq; rw [hk]; simp; omega
  unfold decodeOp at h
  split at h
  all_goals first | cases h | (rename_i e; simp [hc _ (by omega) e, h])

end Sys2Proof
end

