-- ==== Sys2Proof/Laws/Encoder.lean ====
section
/-! SUPPORT. The sums and the operands of the encoder and the checksum generator. -/

namespace Sys2Proof.Machine

/-- The 8-bit accumulator holds the exact sum modulo 256 (R110, R115). -/
theorem sumBytes_toNat (bs : List Byte) : (sumBytes bs).toNat = (bs.map BitVec.toNat).sum % 256 := by
  induction bs with
  | nil => rfl
  | cons b rest ih => simp [sumBytes, ih]

@[simp] theorem sumBytes_append (xs ys : List Byte) : sumBytes (xs ++ ys) = sumBytes xs + sumBytes ys := by
  induction xs with
  | nil => simp [sumBytes]
  | cons b rest ih => simp [sumBytes, ih, BitVec.add_assoc]

/-- The payload ENCODE sends under its preconditions (R131). -/
theorem encodePayload_ok (p : List Byte) (n : Half) (h1 : n.toNat ≤ Config.encMax) (h2 : n.toNat ≤ p.length) :
    encodePayload p n = .ok (p.take n.toNat) := by
  simp [encodePayload, Nat.not_lt.2 h1, Nat.not_lt.2 h2]

/-- The payload ENCODE_AT sends under its preconditions (R136). -/
theorem encodeAtPayload_ok (c0 c1 : Byte) (p : List Byte) (n : Half) (h1 : n.toNat + 2 ≤ Config.encMax)
    (h2 : n.toNat ≤ p.length) : encodeAtPayload c0 c1 p n = .ok (c0 :: c1 :: p.take n.toNat) := by
  simp [encodeAtPayload, Nat.not_lt.2 h1, Nat.not_lt.2 h2]

/-- All that sending a frame can do: append it, or refuse what the operands refuse. -/
theorem sendFrame_next (t i : Byte) (p : Except Refusal (List Byte)) (s s' : State)
    (h : sendFrame t i p s = .next s') :
    ∃ bytes, p = .ok bytes ∧ s' = (txWrite (wireFrame t i bytes) s).setReturned .nothing := by
  cases p with
  | ok bytes => simp only [sendFrame] at h; injection h with h; exact ⟨bytes, rfl, h.symm⟩
  | error r => cases h

end Sys2Proof.Machine
end

