-- ==== Sys2Proof/Laws/PerInstr.lean ====
section
/-! SUPPORT. Per instruction: its bits have the fixed bits of its row in spec/opcode_table.json. -/

namespace Sys2Proof.Laws.TableRow

/-- The leading bits of a request as one number, as the table numbers them: the 3-bit code, the received byte, or the
40-bit head with its first byte on the wire in bits 39 to 32. -/
def bits : Request → Nat
  | .op code _ => code.toNat
  | .rxByte b => b.toNat
  | .wire bytes => bytes.foldl (fun n b => n * 256 + b.toNat) 0

/-- A row's fixed field: its lowest bit, its width (0 where the row's mask is 0), its value. -/
def fixed : Instr → Nat × Nat × Nat
  | .pump _ => (0, 3, 0)
  | .parse => (0, 3, 1)
  | .encode _ _ _ _ => (0, 3, 2)
  | .encodeAt _ _ _ _ => (0, 3, 3)
  | .checksum _ _ _ => (0, 3, 4)
  | .verify _ _ _ _ => (0, 3, 5)
  | .reset => (0, 3, 6)
  | .idleMarker => (0, 8, 0x7E)
  | .idleDiscard _ => (0, 0, 0)
  | .lenHi _ => (0, 0, 0)
  | .lenLo _ => (0, 0, 0)
  | .typeByte _ => (0, 0, 0)
  | .idByte _ => (0, 0, 0)
  | .payloadByte _ => (0, 0, 0)
  | .cksumByte _ => (0, 0, 0)
  | .frameHead _ _ _ _ => (32, 8, 0x7E)

/-- The encoded instruction has its row's fixed bits. -/
def Statement (i : Instr) : Prop :=
  bits (encode i) / 2 ^ (fixed i).1 % 2 ^ (fixed i).2.1 = (fixed i).2.2

theorem pump (input : PumpInput) : Statement (.pump input) := by
  simp [Statement, fixed, bits, Sys2Proof.encode]
theorem parse : Statement .parse := rfl
theorem encode (t i : Byte) (payload : List Byte) (n : Half) : Statement (.encode t i payload n) := by
  simp [Statement, fixed, bits, Sys2Proof.encode]
theorem encodeAt (c0 c1 : Byte) (param : List Byte) (n : Half) : Statement (.encodeAt c0 c1 param n) := by
  simp [Statement, fixed, bits, Sys2Proof.encode]
theorem checksum (t i : Byte) (payload : List Byte) : Statement (.checksum t i payload) := by
  simp [Statement, fixed, bits, Sys2Proof.encode]
theorem verify (t i : Byte) (payload : List Byte) (c : Byte) : Statement (.verify t i payload c) := by
  simp [Statement, fixed, bits, Sys2Proof.encode]
theorem reset : Statement .reset := rfl
theorem idleMarker : Statement .idleMarker := rfl
theorem idleDiscard (b : Byte) : Statement (.idleDiscard b) := Nat.mod_one _
theorem lenHi (b : Byte) : Statement (.lenHi b) := Nat.mod_one _
theorem lenLo (b : Byte) : Statement (.lenLo b) := Nat.mod_one _
theorem typeByte (b : Byte) : Statement (.typeByte b) := Nat.mod_one _
theorem idByte (b : Byte) : Statement (.idByte b) := Nat.mod_one _
theorem payloadByte (b : Byte) : Statement (.payloadByte b) := Nat.mod_one _
theorem cksumByte (b : Byte) : Statement (.cksumByte b) := Nat.mod_one _

theorem frameHead (h l t i : Byte) : Statement (.frameHead h l t i) := by
  have := h.isLt; have := l.isLt; have := t.isLt; have := i.isLt
  have h7 : (0x7E : Byte).toNat = 126 := rfl
  simp only [Statement, fixed, Sys2Proof.encode, bits, List.foldl, Config.start, h7]
  omega

end Sys2Proof.Laws.TableRow
end

