-- ==== Sys2Proof/Laws/Received.lean ====
section
/-! SUPPORT. The state after one received byte, written out per named state, and the induction over everything an
instruction or a step can do. -/

namespace Sys2Proof.Machine

/-! ## One received byte, written out -/

/-- `s` with a new Packet and the result NoFrame. -/
abbrev State.inProgress (s : State) (p : Packet) : State :=
  { s with packet := p, lastResult := .noFrame, returned := .parse }

/-- `s` with a reset Packet and the result NoFrame. -/
abbrev State.discarded (s : State) : State :=
  { s with packet := Packet.fresh, buf := [], lastResult := .noFrame, returned := .parse }

/-- The state after one received byte, by the named state it meets (the table of R177). -/
def received (st : PacketState) (b : Byte) (s : State) : State :=
  match st with
  | .idle =>
    if b = 126#8 then s.inProgress { Packet.fresh with started := true, bytesReceived := 1 }
    else s.inProgress s.packet
  | .complete =>
    if b = 126#8 then { s.inProgress { Packet.fresh with started := true, bytesReceived := 1 } with buf := [] }
    else s.discarded
  | .headerLengthHigh => s.inProgress { s.packet with length := b.setWidth 16 <<< 8, bytesReceived := 2 }
  | .headerLengthLow => s.inProgress { s.packet with length := s.packet.length + b.setWidth 16, bytesReceived := 3 }
  | .headerType =>
    s.inProgress { s.packet with frameType := b, runSum := s.packet.runSum + b, bytesReceived := 4 }
  | .headerId => s.inProgress { s.packet with frameId := b, runSum := s.packet.runSum + b, bytesReceived := 5 }
  | .payload =>
    { s.inProgress { s.packet with
        runSum := s.packet.runSum + b, bytesReceived := s.packet.bytesReceived + 1 } with
      buf := if s.packet.bytesReceived - 3 < s.cfg.cap then Memory.write s.buf (s.packet.bytesReceived - 3) b
        else s.buf }
  | .checksum =>
    if s.packet.length.toNat ≤ s.cfg.cap ∧ s.packet.runSum + b = 0xFF then
      { s with
        packet := { s.packet with
          checksum := b, checksumReceived := true, runSum := 0xFF, bytesReceived := s.packet.bytesReceived + 1 },
        lastResult := .frame s.packet.frameType (reportedLen s.packet.length), returned := .parse }
    else s.discarded

/-- The PUMP of a byte, in every named state. -/
theorem pump_received (st : PacketState) (b : Byte) (s : State) (h : s.packet.stateName = some st) :
    pump (some b) s = .next (received st b s) := by
  by_cases hc : st = .complete
  · subst hc
    have h1 := (stateName_eq_complete _).1 h
    simp only [pump, supersede_of_complete s h1, freshen_packet, stateName_fresh]
    by_cases hb : b = 126#8
    · subst hb; rfl
    · simp [classify, Config.start, hb, received, byteStep, classEffect, idleDiscardEffect, counterStep, finish,
        freshen, State.setPacket, State.setBuf, State.setResult]
  · obtain ⟨h1, h2⟩ := stateName_key _ st h hc
    simp only [pump, supersede_of_not_complete s h1, h]
    congr 1
    rcases h2 with ⟨rfl, h2⟩ | ⟨h2, h3⟩
    · by_cases hb : b = 126#8
      · subst hb
        simp [classify, received, byteStep, classEffect, idleMarkerEffect, counterStep, finish, State.setPacket,
          State.setResult, h2]
      · simp [classify, Config.start, hb, received, byteStep, classEffect, idleDiscardEffect, counterStep, finish,
          State.setResult, h2]
    · rcases h3 with ⟨rfl, h3⟩ | ⟨rfl, h3⟩ | ⟨rfl, h3⟩ | ⟨rfl, h3⟩ | ⟨rfl, h3, h4⟩ | ⟨rfl, h3, h4⟩
      · simp [classify, received, byteStep, classEffect, lenHiEffect, counterStep, finish, State.setPacket,
          State.setResult, h1, h2, h3]
      · simp [classify, received, byteStep, classEffect, lenLoEffect, counterStep, finish, State.setPacket,
          State.setResult, h1, h2, h3]
      · simp [classify, received, byteStep, classEffect, typeEffect, addToSum, counterStep, finish, State.setPacket,
          State.setResult, h1, h2, h3]
      · simp [classify, received, byteStep, classEffect, idEffect, addToSum, counterStep, finish, State.setPacket,
          State.setResult, h1, h2, h3]
      · by_cases hcap : s.packet.bytesReceived - 3 < s.cfg.cap <;>
          simp [classify, received, byteStep, classEffect, payloadEffect, memWrite, State.setBuf, addToSum,
            counterStep, finish, State.setPacket, State.setResult, h1, h2, hcap]
      · by_cases hv : s.packet.length.toNat ≤ s.cfg.cap ∧ s.packet.runSum + b = 0xFF
        · simp [classify, received, byteStep, classEffect, cksumEffect, addToSum, counterStep, finish,
            State.setPacket, State.setResult, h2, hv, verdict, verdictOk]
        · have : ¬(s.packet.length.toNat ≤ s.cfg.cap ∧ s.packet.runSum + b = 255#8) := hv
          simp [classify, received, byteStep, classEffect, cksumEffect, addToSum, counterStep, finish,
            State.setPacket, State.setResult, h2, verdict, verdictOk, this, freshen, State.setBuf]

/-- The same without the supersede step, where the Packet is not complete. -/
theorem finish_received (st : PacketState) (b : Byte) (s : State) (h : s.packet.stateName = some st)
    (hc : st ≠ .complete) : finish (byteStep (classify st b) b s) = received st b s := by
  have := pump_received st b s h
  simp only [pump, supersede_of_not_complete s (stateName_key _ st h hc).1, h] at this
  injection this

/-- A Packet without a name is not complete. -/
theorem not_complete_of_unnamed (p : Packet) (h : p.stateName = none) : ¬p.checksumReceived = true :=
  fun hc => by rw [stateName_complete _ hc] at h; cases h

/-- Everything a PUMP can answer, written out. -/
theorem pump_next_received (a : Option Byte) (s s' : State) (h : pump a s = .next s') :
    (a = none ∧ s' = (supersede s).setResult .noFrame) ∨
      ∃ b st, a = some b ∧ s.packet.stateName = some st ∧ s' = received st b s := by
  cases a with
  | none => simp only [pump] at h; cases h; exact .inl ⟨rfl, rfl⟩
  | some b =>
    cases hst : s.packet.stateName with
    | none => simp [pump, supersede, not_complete_of_unnamed _ hst, hst] at h
    | some st => rw [pump_received st b s hst] at h; cases h; exact .inr ⟨b, st, rfl, rfl, rfl⟩

/-- After a received byte the Packet is in a named state again. -/
theorem received_named (st : PacketState) (b : Byte) (s : State) (h : s.packet.stateName = some st) :
    (received st b s).packet.stateName.isSome = true := by
  have named : ∀ p : Packet, p.started = true → p.bytesReceived ≠ 0 → p.stateName.isSome = true := by
    intro p h1 h2; unfold Packet.stateName; split_ifs <;> rfl
  by_cases hc : st = .complete
  · subst hc; simp only [received]; split <;> rfl
  · obtain ⟨h1, h2⟩ := stateName_key _ st h hc
    rcases h2 with ⟨rfl, h2⟩ | ⟨h2, h3⟩
    · simp only [received]; split
      · rfl
      · simp [h]
    · rcases h3 with ⟨rfl, h3⟩ | ⟨rfl, h3⟩ | ⟨rfl, h3⟩ | ⟨rfl, h3⟩ | ⟨rfl, h3, h4⟩ | ⟨rfl, h3, h4⟩
      · exact named _ h2 (by simp [received])
      · exact named _ h2 (by simp [received])
      · exact named _ h2 (by simp [received])
      · exact named _ h2 (by simp [received])
      · exact named _ h2 (by simp [received])
      · simp only [received]; split
        · exact named _ h2 (by simp)
        · rfl

/-- A received byte does not look at the RX stream. -/
theorem received_setRx (st : PacketState) (b : Byte) (s : State) (r : List (Option Byte)) :
    received st b (s.setRx r) = (received st b s).setRx r := by
  cases st
  case payload =>
    by_cases h : s.packet.bytesReceived - 3 < s.cfg.cap <;>
      simp only [received, State.setRx_packet, State.setRx_cfg, h, if_true, if_false] <;> rfl
  case checksum =>
    by_cases h : s.packet.length.toNat ≤ s.cfg.cap ∧ s.packet.runSum + b = 0xFF <;>
      simp only [received, State.setRx_packet, State.setRx_cfg, h, if_false] <;> rfl
  all_goals (simp only [received]; (try split) <;> rfl)

/-! ## The byte classes as instructions -/

/-- A byte-class instruction is `pumpClass` of its byte (an IDLE_MARKER's byte is `0x7E`). -/
theorem exec_classInstr (c : ByteClass) (b : Byte) (hb : c = .idleMarker → b = 0x7E) (s : State) :
    exec (classInstr c b) s = pumpClass c b s := by
  cases c <;> first | rfl | (have := hb rfl; subst this; rfl)

/-- The supersede step leaves a named Packet in a state that classifies bytes the same way (R177). -/
theorem supersede_classify (s : State) (st : PacketState) (h : s.packet.stateName = some st) :
    ∃ st', (supersede s).packet.stateName = some st' ∧ ∀ b, classify st' b = classify st b := by
  rw [supersede_stateName]
  by_cases hc : s.packet.checksumReceived = true
  · have := stateName_complete _ hc; rw [this] at h; cases h; exact ⟨.idle, by simp [hc], fun _ => rfl⟩
  · exact ⟨st, by simp [hc, h], fun _ => rfl⟩

/-- Everything a byte-class instruction can answer: its byte is in the class, and it is received. -/
theorem classInstr_next (c : ByteClass) (b : Byte) (s s' : State) (h : exec (classInstr c b) s = .next s') :
    ∃ b' st, s.packet.stateName = some st ∧ classify st b' = c ∧ s' = received st b' s ∧
      (c ≠ .idleMarker → b' = b) := by
  have key : ∀ b', pumpClass c b' s = .next s' →
      ∃ st, s.packet.stateName = some st ∧ classify st b' = c ∧ s' = received st b' s := by
    intro b' h
    cases hst : s.packet.stateName with
    | none =>
      have : (supersede s).packet.stateName = none := by
        rw [supersede_stateName, if_neg (not_complete_of_unnamed _ hst), hst]
      simp [pumpClass, this] at h
    | some st =>
      obtain ⟨st', h1, h2⟩ := supersede_classify s st hst
      by_cases hc : classify st b' = c
      · rw [pumpClass_eq_pump _ _ _ _ h1 ((h2 b').trans hc), pump_received st b' s hst] at h
        cases h; exact ⟨st, rfl, hc, rfl⟩
      · simp [pumpClass, h1, h2, hc] at h
  by_cases hi : c = .idleMarker
  · subst hi
    obtain ⟨st, h1, h2, h3⟩ := key 0x7E h
    exact ⟨0x7E, st, h1, h2, h3, fun e => absurd rfl e⟩
  · rw [exec_classInstr _ _ (fun e => absurd e hi)] at h
    obtain ⟨st, h1, h2, h3⟩ := key b h
    exact ⟨b, st, h1, h2, h3, fun _ => rfl⟩

/-! ## Induction over what can happen -/

/-- What can happen to the state: a relation closed under these moves holds across every instruction and step. -/
structure Moves (R : State → State → Prop) : Prop where
  refl : ∀ s, R s s
  trans : ∀ a b c, R a b → R b c → R a c
  /-- An answer of the transport is consumed. -/
  rx : ∀ s a rest, s.rx = a :: rest → R s (s.setRx rest)
  /-- An operation of the assembler without a byte, on a Packet that is not complete. -/
  noFrame : ∀ s, s.packet.checksumReceived = false → R s (s.setResult .noFrame)
  /-- Another operation returns. -/
  returned : ∀ s v, R s (s.setReturned v)
  /-- The Packet is reset. -/
  fresh : ∀ s, R s ((freshen s).setResult .noFrame)
  /-- A byte is received. -/
  byte : ∀ st b s, s.packet.stateName = some st → R s (received st b s)
  /-- A frame is sent. -/
  tx : ∀ s w, R s (txWrite w s)

theorem Moves.supersede {R : State → State → Prop} (m : Moves R) (s : State) :
    R s ((supersede s).setResult .noFrame) := by
  by_cases h : s.packet.checksumReceived = true
  · rw [supersede_of_complete s h]; exact m.fresh s
  · simp only [Bool.not_eq_true] at h; rw [supersede_of_not_complete s h]; exact m.noFrame s h

theorem Moves.pump {R : State → State → Prop} (m : Moves R) (a : Option Byte) (s s' : State)
    (h : pump a s = .next s') : R s s' := by
  rcases pump_next_received a s s' h with ⟨_, rfl⟩ | ⟨b, st, _, hst, rfl⟩
  · exact m.supersede s
  · exact m.byte st b s hst

theorem Moves.pumpAll {R : State → State → Prop} (m : Moves R) (l : List (Option Byte)) :
    ∀ s s', pumpAll l s = .next s' → R s s' := by
  induction l with
  | nil => intro s s' h; cases h; exact m.refl _
  | cons a rest ih =>
    intro s s' h
    simp only [Machine.pumpAll] at h
    cases hp : Machine.pump a s with
    | next u => rw [hp] at h; exact m.trans _ _ _ (m.pump a s u hp) (ih _ _ h)
    | fault f => rw [hp] at h; cases h
    | refused r => rw [hp] at h; cases h

theorem Moves.parseLoop {R : State → State → Prop} (m : Moves R) (l : List (Option Byte)) :
    ∀ s s', s.rx = l → s.packet.checksumReceived = false → parseLoop l s = .next s' → R s s' := by
  induction l with
  | nil =>
    intro s s' hl hc h; cases h
    rw [show s.setRx [] = s by simp only [State.setRx, ← hl]]; exact m.noFrame _ hc
  | cons a rest ih =>
    intro s s' hl hc h
    cases a with
    | none => cases h; exact m.trans _ _ _ (m.rx s _ rest hl) (m.noFrame _ hc)
    | some b =>
      simp only [Machine.parseLoop] at h
      cases hst : s.packet.stateName with
      | none => simp [hst] at h
      | some st =>
        have hne : st ≠ .complete := fun e => by
          rw [e] at hst; have := (stateName_eq_complete _).1 hst; rw [hc] at this; cases this
        have h1 : R s (received st b (s.setRx rest)) := m.trans _ _ _ (m.rx s _ rest hl) (m.byte st b _ hst)
        simp only [hst] at h
        rw [← finish_received st b (s.setRx rest) hst hne] at h1
        by_cases hk : (byteStep (classify st b) b (s.setRx rest)).packet.checksumReceived = true
        · rw [if_pos hk] at h; cases h
          simpa only [finish, hk, if_true] using h1
        · rw [if_neg hk] at h
          simp only [finish, hk] at h1
          refine m.trans _ _ _ h1 (ih _ _ ?_ ?_ (by rw [← h]; exact parseLoop_setResult _ _ _))
          · simp [byteStep_setRx]
          · simpa using hk

/-- A relation closed under the moves holds across every instruction. -/
theorem Moves.exec {R : State → State → Prop} (m : Moves R) (i : Instr) (s s' : State)
    (h : exec i s = .next s') : R s s' := by
  have cls : ∀ c b, Machine.exec (classInstr c b) s = .next s' → R s s' := by
    intro c b h
    obtain ⟨b', st, h1, -, rfl, -⟩ := classInstr_next c b s s' h
    exact m.byte st b' s h1
  cases i with
  | pump x =>
    cases x with
    | given a => exact m.pump a s s' h
    | read =>
      cases hr : s.rx with
      | nil => simp only [Machine.exec, execPump, pumpOperand, rxRead, hr] at h; exact m.pump _ _ _ h
      | cons a rest =>
        simp only [Machine.exec, execPump, pumpOperand, rxRead, hr] at h
        exact m.trans _ _ _ (m.rx s a rest hr) (m.pump _ _ _ h)
  | parse =>
    simp only [Machine.exec, execParse] at h
    rw [← parseLoop_setResult _ _ .noFrame] at h
    exact m.trans _ _ _ (m.supersede s) (m.parseLoop _ _ _ (by simp) (by simp) h)
  | encode t i p n =>
    obtain ⟨w, -, rfl⟩ := sendFrame_next _ _ _ _ _ h; exact m.trans _ _ _ (m.tx s _) (m.returned _ _)
  | encodeAt t i p n =>
    obtain ⟨w, -, rfl⟩ := sendFrame_next _ _ _ _ _ h; exact m.trans _ _ _ (m.tx s _) (m.returned _ _)
  | checksum => cases h; exact m.returned _ _
  | verify => cases h; exact m.returned _ _
  | reset => cases h; exact m.trans _ _ _ (m.fresh s) (m.returned _ _)
  | idleMarker => exact cls .idleMarker 0 h
  | idleDiscard b => exact cls .idleDiscard b h
  | lenHi b => exact cls .lenHi b h
  | lenLo b => exact cls .lenLo b h
  | typeByte b => exact cls .typeByte b h
  | idByte b => exact cls .idByte b h
  | payloadByte b => exact cls .payloadByte b h
  | cksumByte b => exact cls .cksumByte b h
  | frameHead h' l t i => exact m.pumpAll _ _ _ h

/-- A relation closed under the moves and under taking a request from the queue holds across every step. -/
theorem Moves.step {R : State → State → Prop} (m : Moves R) (hq : ∀ s q, R s (s.setRequests q)) (s s' : State)
    (h : step s = .next s') : R s s' := by
  simp only [Machine.step] at h
  split at h
  · cases h; exact m.refl _
  · split at h
    · exact m.trans _ _ _ (hq s _) (m.exec _ _ _ h)
    · cases h

end Sys2Proof.Machine
end

