-- ==== Sys2Proof/Tests/Slice0.lean ====
section
/-! SUPPORT. Tests. Expected values are the spec's own vectors (95_test_vectors.md, its label in each comment) or hand
calculation from the rules; `CAP = 8` as there. A `witness_<Name>` shows states and operands that meet the hypotheses
of the statement `Obligations.<Name>`. -/

namespace Sys2Proof.Tests

open Sys2Proof.Machine Sys2Proof.Safety

/-! ## Helpers -/

/-- The state of the vectors: after reset, `CAP = 8`. -/
def base : State := { State.reset with cfg := { cap := 8, atType := 0x08, atId := 0x01 } }

/-- A Packet written as the tuple of 95_test_vectors.md. -/
def tuple (started : Bool) (n : Nat) (length : Half) (t i : Byte) (cr : Bool) (ck sum : Byte) : Packet :=
  { started := started, bytesReceived := n, length := length, frameType := t, frameId := i, checksumReceived := cr,
    checksum := ck, runSum := sum }

/-- `base` with a Packet and a buffer. -/
def having (p : Packet) (m : Memory) : State := { base with packet := p, buf := m }

/-- Look at a part of the next state. -/
def see {α : Type} (f : State → α) : Host.Outcome State Fault Refusal → Option α
  | .next s => some (f s)
  | .fault _ => none
  | .refused _ => none

/-- The name of a refusal. -/
def refusal : Host.Outcome State Fault Refusal → Option Refusal
  | .next _ => none
  | .fault _ => none
  | .refused r => some r

/-- The instruction a request decodes to. -/
def decoded (st : PacketState) (r : Request) : Option Instr := (decode (some st) r).toOption

/-- `base` with one request. -/
def asked (r : Request) : State := { base with requests := [r] }

-- The states of vector A1, one per named state.
def hi : State := having (tuple true 1 0 0 0 false 0 0) []
def lo : State := having (tuple true 2 0 0 0 false 0 0) []
def ty : State := having (tuple true 3 5 0 0 false 0 0) []
def idS : State := having (tuple true 4 5 0x08 0 false 0 0x08) []
def pay : State := having (tuple true 5 5 0x08 0x01 false 0 0x09) []
def payLast : State := having (tuple true 7 5 0x08 0x01 false 0 0xA0) [(2, 0x53), (3, 0x44)]
def ck : State := having (tuple true 8 5 0x08 0x01 false 0 0xA0) [(2, 0x53), (3, 0x44), (4, 0x00)]
def done : State :=
  { having (tuple true 9 5 0x08 0x01 true 0x5F 0xFF) [(2, 0x53), (3, 0x44), (4, 0x00)] with
    lastResult := .frame 0x08 3, returned := .parse }
/-- Vector A7 before index 11: the next payload byte has index 8 = `CAP`. -/
def full : State :=
  having (tuple true 11 9 0x01 0x02 false 0 0x72) [(2, 0x10), (3, 0x11), (4, 0x12), (5, 0x13), (6, 0x14), (7, 0x15)]
/-- Vector A7 before index 12: an oversize frame at its checksum byte. -/
def overCk : State :=
  having (tuple true 12 9 0x01 0x02 false 0 0x88) [(2, 0x10), (3, 0x11), (4, 0x12), (5, 0x13), (6, 0x14), (7, 0x15)]
/-- Vector A2 before its checksum byte: a declared length of 2. -/
def emptyCk : State := having (tuple true 5 2 0x10 0 false 0 0x10) []
/-- Vector A1 before its id byte, with a declared length of 2. -/
def idEmpty : State := having (tuple true 4 2 0x10 0 false 0 0x10) []
/-- A Packet that breaks R34 (b). -/
def broken : State := having (tuple true 0 0 0 0 false 0 0) []

/-! ## Well-formedness: an ill-formed term for each check -/

-- R131 (1): 65534 is above ENC_MAX
theorem test_wf_encode_long : (Instr.encode 0x08 0x01 (List.replicate 3 0) 65534).wellFormed = false := by decide
-- R131 (2): a payload of two bytes cannot give three
theorem test_wf_encode_short : (Instr.encode 0x08 0x01 [0x53, 0x44] 3).wellFormed = false := by decide
-- R136: 65532 + 2 is above ENC_MAX
theorem test_wf_encodeAt_long : (Instr.encodeAt 0x53 0x44 [] 65532).wellFormed = false := by decide
-- R136: the operand has no byte
theorem test_wf_encodeAt_short : (Instr.encodeAt 0x53 0x44 [] 1).wellFormed = false := by decide
-- R90: the marker is IDLE_MARKER
theorem test_wf_idleDiscard_marker : (Instr.idleDiscard 0x7E).wellFormed = false := by decide
-- and the vectors are well formed
theorem test_wf_vectors : (Instr.encode 0x08 0x01 [0x53, 0x44, 0x00, 0x99, 0x99] 3).wellFormed = true ∧
    (Instr.encodeAt 0x53 0x44 [] 0).wellFormed = true ∧ (Instr.idleDiscard 0x7D).wellFormed = true := by decide

/-! ## Decoding: a word per constructor, written out from R94 (codes), R90 (received bytes) and R81 (frame head) -/

theorem test_decode_pump : decoded .idle (.op 0b000 [0x01, 0x7E]) = some (.pump (.given (some 0x7E))) ∧
    decoded .idle (.op 0b000 [0x00]) = some (.pump (.given none)) ∧
    decoded .idle (.op 0b000 []) = some (.pump .read) := by decide
theorem test_decode_parse : decoded .idle (.op 0b001 []) = some .parse := by decide
theorem test_decode_encode :
    decoded .idle (.op 0b010 [0x08, 0x01, 0x01, 0x02, 0x53]) = some (.encode 0x08 0x01 [0x53] 0x0102) := by decide
theorem test_decode_encodeAt :
    decoded .idle (.op 0b011 [0x53, 0x44, 0x00, 0x01, 0x00]) = some (.encodeAt 0x53 0x44 [0x00] 1) := by decide
theorem test_decode_checksum :
    decoded .idle (.op 0b100 [0x17, 0x05, 0x48, 0x69]) = some (.checksum 0x17 0x05 [0x48, 0x69]) := by decide
theorem test_decode_verify :
    decoded .idle (.op 0b101 [0x17, 0x05, 0x32, 0x48, 0x69]) = some (.verify 0x17 0x05 [0x48, 0x69] 0x32) := by decide
theorem test_decode_reset : decoded .idle (.op 0b110 []) = some .reset := by decide
theorem test_decode_unassigned : decode (some .idle) (.op 0b111 []) = .error .unassignedCode := by decide
-- the bits of 0x7E are 01111110; in Idle and after a complete frame it is the marker, elsewhere data (R89)
theorem test_decode_idleMarker : decoded .idle (.rxByte 0b01111110) = some .idleMarker ∧
    decoded .complete (.rxByte 0b01111110) = some .idleMarker := by decide
theorem test_decode_idleDiscard : decoded .idle (.rxByte 0b01111101) = some (.idleDiscard 0x7D) := by decide
theorem test_decode_lenHi : decoded .headerLengthHigh (.rxByte 0b00000001) = some (.lenHi 0x01) := by decide
theorem test_decode_lenLo : decoded .headerLengthLow (.rxByte 0b00000101) = some (.lenLo 0x05) := by decide
theorem test_decode_type : decoded .headerType (.rxByte 0b00001000) = some (.typeByte 0x08) := by decide
theorem test_decode_id : decoded .headerId (.rxByte 0b01111110) = some (.idByte 0x7E) := by decide
theorem test_decode_payload : decoded .payload (.rxByte 0b01010011) = some (.payloadByte 0x53) := by decide
theorem test_decode_cksum : decoded .checksum (.rxByte 0b01011111) = some (.cksumByte 0x5F) := by decide
theorem test_decode_frameHead :
    decoded .idle (.wire [0b01111110, 0x00, 0x05, 0x08, 0x01]) = some (.frameHead 0x00 0x05 0x08 0x01) := by decide

/-! ## The table's words -/

-- opcode_table.json: the OP rows' bits 2..0 are R94's codes; the WIRE row's bits 39..32 are 0x7E
theorem test_tableWords : (List.range 7).map (decodeTableWord 8) =
    [some (.pump .read), some .parse, some (.encode 0 0 [] 0), some (.encodeAt 0 0 [] 0), some (.checksum 0 0 []),
      some (.verify 0 0 [] 0), some .reset] ∧
    decodeTableWord 8 7 = none ∧ decodeTableWord 8 0x7E = some .idleMarker ∧
    decodeTableWord 8 0x41 = some (.idleDiscard 0x41) ∧
    decodeTableWord 40 0x7E00050801 = some (.frameHead 0x00 0x05 0x08 0x01) := by decide
-- R81, R85: the head placed as the first request after reset fills the header
theorem test_fetch_frameHead : see State.packet (step (State.reset.withFetchWord 40 0x7E01020801)) =
    some (tuple true 5 0x0102 0x08 0x01 false 0 0x09) := by decide
-- E8 with no operand bytes but zeros
theorem test_fetch_encode : see State.tx (step (State.reset.withFetchWord 8 0b010)) =
    some [0x7E, 0x00, 0x02, 0x00, 0x00, 0xFF] := by decide

/-! ## CHECKSUM and VERIFY -/

-- K1
theorem test_checksum_K1 : see State.returned (exec (.checksum 0x08 0x01 [0x53, 0x44, 0x00]) done) =
    some (.byte 0x5F) := by decide
-- K4: the sum wraps more than once
theorem test_checksum_K4 : see State.returned (exec (.checksum 0xFF 0xFF [0xFF, 0x03]) base) =
    some (.byte 0xFF) := by decide
-- V1, V3
theorem test_verify_V1 : see State.returned (exec (.verify 0x08 0x01 [0x53, 0x44, 0x00] 0x5F) base) =
    some (.bool true) := by decide
theorem test_verify_V3 : see State.returned (exec (.verify 0x09 0x01 [0x53, 0x44, 0x00] 0x5F) base) =
    some (.bool false) := by decide

/-! ## ENCODE and ENCODE_AT -/

-- E15: only the first three bytes of a longer operand are used
theorem test_encode_E15 : see State.tx (exec (.encode 0x08 0x01 [0x53, 0x44, 0x00, 0x99, 0x99] 3) base) =
    some [0x7E, 0x00, 0x05, 0x08, 0x01, 0x53, 0x44, 0x00, 0x5F] := by decide
-- E18
theorem test_encode_E18 : refusal (exec (.encode 0x08 0x01 [] 65534) base) = some .payloadTooLong := by decide
-- E16, and E17 with AT_TYPE 09 and AT_ID 00
theorem test_encodeAt_E16 : see State.tx (exec (.encodeAt 0x53 0x44 [0x00] 1) base) =
    some [0x7E, 0x00, 0x05, 0x08, 0x01, 0x53, 0x44, 0x00, 0x5F] := by decide
theorem test_encodeAt_E17 :
    see State.tx (exec (.encodeAt 0x53 0x44 [] 0) { base with cfg := { cap := 8, atType := 0x09, atId := 0x00 } }) =
    some [0x7E, 0x00, 0x04, 0x09, 0x00, 0x53, 0x44, 0x5F] := by decide

/-! ## The assembler, one byte -/

-- A1 #0 and A3: in Idle
theorem test_idleMarker : see State.packet (exec .idleMarker base) = some (tuple true 1 0 0 0 false 0 0) := by decide
theorem test_idleDiscard : see State.packet (exec (.idleDiscard 0xFF) base) = some Packet.fresh := by decide
-- S2 indices 1 and 2: length 03EA = 1002
theorem test_lenHi : see State.packet (exec (.lenHi 0x03) hi) = some (tuple true 2 768 0 0 false 0 0) := by decide
theorem test_lenLo : see State.packet (exec (.lenLo 0xEA) (having (tuple true 2 768 0 0 false 0 0) [])) =
    some (tuple true 3 1002 0 0 false 0 0) := by decide
-- A1 #3, #4
theorem test_type : see State.packet (exec (.typeByte 0x08) ty) = some (tuple true 4 5 0x08 0 false 0 0x08) := by
  decide
theorem test_id : see State.packet (exec (.idByte 0x01) idS) = some (tuple true 5 5 0x08 0x01 false 0 0x09) := by
  decide
-- A1 #5: buffer index 2
theorem test_payload_A1 : see (fun s => (s.packet, s.buf)) (exec (.payloadByte 0x53) pay) =
    some (tuple true 6 5 0x08 0x01 false 0 0x5C, [(2, 0x53)]) := by decide
-- A7 index 11: idx 8 = CAP is not stored, and summed
theorem test_payload_A7 : see (fun s => (s.packet.runSum, s.buf == full.buf)) (exec (.payloadByte 0x16) full) =
    some (0x88, true) := by decide
-- A1 #8
theorem test_cksum_A1 : see (fun s => (s.packet, s.lastResult)) (exec (.cksumByte 0x5F) ck) =
    some (tuple true 9 5 0x08 0x01 true 0x5F 0xFF, .frame 0x08 3) := by decide
-- A7 index 12: the sum is FF and the frame does not fit
theorem test_cksum_A7 : see (fun s => (s.packet, s.lastResult)) (exec (.cksumByte 0x77) overCk) =
    some (Packet.fresh, .noFrame) := by decide
-- A1 #9: supersede, no byte
theorem test_pump_none : see (fun s => (s.packet, s.lastResult)) (exec (.pump (.given none)) done) =
    some (Packet.fresh, .noFrame) := by decide
-- a byte on a complete Packet is met in Idle (R151)
theorem test_pump_read : see (fun s => (s.packet, s.rx))
    (exec (.pump .read) { done with rx := [some 0x7E, some 0x00] }) =
    some (tuple true 1 0 0 0 false 0 0, [some 0x00]) := by decide
-- P4 step 3: one PARSE returns one frame and leaves the rest
theorem test_parse_P4 : see (fun s => (s.lastResult, s.rx))
    (exec .parse { base with rx := [0x7E, 0x00, 0x05, 0x08, 0x01, 0x53, 0x44, 0x00, 0x5F, 0x7E, 0x00].map some }) =
    some (.frame 0x08 3, [some 0x7E, some 0x00]) := by decide
-- P4 step 6: nothing available
theorem test_parse_empty : see (fun s => (s.packet, s.lastResult)) (exec .parse done) =
    some (Packet.fresh, .noFrame) := by decide
-- P5 step 5
theorem test_reset_P5 : see (fun s => (s.packet, s.buf)) (exec .reset idS) = some (Packet.fresh, []) := by decide
-- A5: the marker value inside a frame is data (R89); here the head arrives where the Packet awaits its id
theorem test_frameHead_data : see (fun s => (s.packet.frameId, s.packet.bytesReceived))
    (exec (.frameHead 0x11 0x22 0x33 0xE4) { idS with packet := { idS.packet with length := 9 } }) =
    some (0x7E, 9) := by decide

/-! ## Witnesses: states and operands that meet the hypotheses of the statements -/

theorem witness_OperationCodesAsAssigned :
    decode (some .payload) (.op 0b000 [0x00]) = .ok (.pump (.given none)) ∧
    decode (some .idle) (.op 0b001 []) = .ok .parse ∧ decode none (.op 0b010 [1, 2, 0, 0]) = .ok (.encode 1 2 [] 0) ∧
    decode none (.op 0b011 [1, 2, 0, 0]) = .ok (.encodeAt 1 2 [] 0) ∧
    decode none (.op 0b100 [1, 2]) = .ok (.checksum 1 2 []) ∧
    decode none (.op 0b101 [1, 2, 3]) = .ok (.verify 1 2 [] 3) ∧ decode none (.op 0b110 []) = .ok .reset ∧
    (asked (.op 0b111 [])).requests = .op 0b111 [] :: [] := by decide

theorem witness_DecodeInvertsEncode :
    Instr.idleMarker.AdmittedAt .idle ∧ Instr.idleMarker.AdmittedAt .complete ∧
    (Instr.idleDiscard 0x7D).AdmittedAt .idle ∧ (Instr.lenHi 0xFF).AdmittedAt .headerLengthHigh ∧
    (Instr.lenLo 0).AdmittedAt .headerLengthLow ∧ (Instr.typeByte 0x7E).AdmittedAt .headerType ∧
    (Instr.idByte 0x7E).AdmittedAt .headerId ∧ (Instr.payloadByte 0x7E).AdmittedAt .payload ∧
    (Instr.cksumByte 0).AdmittedAt .checksum ∧ (Instr.encode 0xFF 0 [1] 0xFFFF).AdmittedAt .payload ∧
    (Instr.frameHead 0xFF 0xFF 0 0).AdmittedAt .checksum := by decide

theorem witness_EncodeInvertsDecode :
    decode (some .complete) (.rxByte 0xFF) = .ok (.idleDiscard 0xFF) ∧
    decode (some .idle) (.wire [0x7E, 0xFF, 0xFF, 0, 0]) = .ok (.frameHead 0xFF 0xFF 0 0) := by decide

-- each class, at the values where the classes meet: counter 4 and 5, and index 2 against a length of 3 and of 2
theorem witness_ReceivedByteClass :
    (∀ s ∈ [base, hi, lo, ty, idS, pay, ck, emptyCk], s.packet.checksumReceived = false ∧ Meaningful s) ∧
    base.packet.started = false ∧ hi.packet.bytesReceived = 1 ∧ lo.packet.bytesReceived = 2 ∧
    ty.packet.bytesReceived = 3 ∧ idS.packet.bytesReceived = 4 ∧
    (pay.packet.bytesReceived = 5 ∧ pay.packet.bytesReceived - 3 < pay.packet.length.toNat) ∧
    (emptyCk.packet.bytesReceived = 5 ∧ ¬emptyCk.packet.bytesReceived - 3 < emptyCk.packet.length.toNat) ∧
    emptyCk.packet.started = true := by decide

theorem witness_StepRunsDecodedInstruction :
    (asked (.rxByte 0x7E)).requests = .rxByte 0x7E :: [] ∧
    decode (asked (.rxByte 0x7E)).packet.stateName (.rxByte 0x7E) = .ok .idleMarker ∧
    (asked (.op 7 [])).requests = .op 7 [] :: [] ∧
    decode (asked (.op 7 [])).packet.stateName (.op 7 []) = .error .unassignedCode ∧
    base.requests = [] := by decide

theorem witness_VerifyAcceptsOnlyTheChecksum : (0x09 : Byte) ≠ 0x08 ∧ (0x00 : Byte) ≠ 0x01 ∧
    ([0x53, 0x44, 0x00] : List Byte)[2]? = some 0x00 ∧ (0x80 : Byte) ≠ 0x00 := by decide

theorem witness_SumIgnoresOrder : ([0x53, 0x44, 0x00] : List Byte).Perm [0x44, 0x53, 0x00] := List.Perm.swap _ _ _

theorem witness_EncodeAppendsFrame :
    ((0 : Half).toNat ≤ 65533 ∧ (0 : Half).toNat ≤ ([] : List Byte).length) ∧
    ((65533 : Half).toNat ≤ 65533 ∧ (65533 : Half).toNat ≤ (List.replicate 65533 (0 : Byte)).length) := by
  rw [List.length_replicate]; decide

theorem witness_EncodeAtAppendsFrame :
    ((0 : Half).toNat + 2 ≤ 65533 ∧ (0 : Half).toNat ≤ ([] : List Byte).length) ∧
    ((65531 : Half).toNat + 2 ≤ 65533 ∧ (65531 : Half).toNat ≤ (List.replicate 65531 (0 : Byte)).length) := by
  rw [List.length_replicate]; decide

theorem witness_EncoderRefusesOutsidePreconditions :
    65533 < (65534 : Half).toNat ∧ ((1 : Half).toNat ≤ 65533 ∧ ([] : List Byte).length < (1 : Half).toNat) ∧
    65533 < (65532 : Half).toNat + 2 ∧
    ((1 : Half).toNat + 2 ≤ 65533 ∧ ([] : List Byte).length < (1 : Half).toNat) := by decide

theorem witness_EncoderAndChecksumFrame :
    (∃ t, exec (.encode 1 2 [3] 1) done = .next t) ∧ (∃ t, exec (.encodeAt 1 2 [3] 1) done = .next t) ∧
    (∃ t, exec (.checksum 1 2 [3]) done = .next t) ∧ (∃ t, exec (.verify 1 2 [3] 4) done = .next t) :=
  ⟨⟨_, rfl⟩, ⟨_, rfl⟩, ⟨_, rfl⟩, ⟨_, rfl⟩⟩

theorem witness_EncodeDoesNotDisturbAssembler :
    (∃ t, exec (.encode 1 2 [3] 1) done = .next t) ∧ (∃ t, exec .parse done = .next t) ∧
    (∃ t, exec .reset done = .next t) ∧ (∃ t, exec (.pump (.given (some 0x7E))) done = .next t) :=
  ⟨⟨_, rfl⟩, ⟨_, rfl⟩, ⟨_, rfl⟩, ⟨_, rfl⟩⟩

theorem witness_PumpNoneOnlySupersedes :
    pay.packet.checksumReceived = false ∧ done.packet.checksumReceived = true := by decide

theorem witness_CompletePacketIsSuperseded : done.packet.checksumReceived = true := by decide

theorem witness_PumpReadConsumesOneAnswer :
    ({ pay with rx := [none, some 0x53] } : State).rx = none :: [some 0x53] ∧ pay.rx = [] := by decide

theorem witness_PumpOfByteIsItsClass :
    decode pay.packet.stateName (.rxByte 0x53) = .ok (.payloadByte 0x53) ∧
    decode done.packet.stateName (.rxByte 0x7E) = .ok .idleMarker := by decide

-- each named state, and the verdict both ways
theorem witness_PacketStateTransitions :
    base.packet.stateName = some .idle ∧ hi.packet.stateName = some .headerLengthHigh ∧
    lo.packet.stateName = some .headerLengthLow ∧ ty.packet.stateName = some .headerType ∧
    (idS.packet.stateName = some .headerId ∧ 2 < idS.packet.length.toNat) ∧
    (idEmpty.packet.stateName = some .headerId ∧ ¬2 < idEmpty.packet.length.toNat) ∧
    (pay.packet.stateName = some .payload ∧ pay.packet.bytesReceived - 2 < pay.packet.length.toNat) ∧
    (payLast.packet.stateName = some .payload ∧
      ¬payLast.packet.bytesReceived - 2 < payLast.packet.length.toNat) ∧
    (ck.packet.stateName = some .checksum ∧ ck.packet.length.toNat ≤ ck.cfg.cap ∧
      ck.packet.runSum + 0x5F = 0xFF) ∧
    (overCk.packet.stateName = some .checksum ∧ ¬overCk.packet.length.toNat ≤ overCk.cfg.cap) ∧
    done.packet.stateName = some .complete := by decide

theorem witness_PumpDependsOnPacketAndOperandOnly :
    ({ ck with tx := [1], rx := [none] } : State).packet = ck.packet ∧
    ({ ck with tx := [1], rx := [none] } : State).buf = ck.buf ∧
    ({ ck with tx := [1], rx := [none] } : State).cfg.cap = ck.cfg.cap ∧
    (∃ t, exec (.pump (.given (some 0x5F))) ck = .next t) ∧ (∃ t, exec (.pump (.given none)) ck = .next t) :=
  ⟨rfl, rfl, rfl, ⟨_, rfl⟩, ⟨_, rfl⟩⟩

theorem witness_IdleMarkerStartsFrame : base.packet = Packet.fresh := by decide

theorem witness_IdleDiscardDropsByte : base.packet = Packet.fresh ∧ (0x7D : Byte) ≠ 0x7E := by decide

theorem witness_LenHiSetsHighByte : hi.packet.started = true ∧ hi.packet.checksumReceived = false ∧
    hi.packet.bytesReceived = 1 := by decide

theorem witness_LenLoCompletesLength : lo.packet.started = true ∧ lo.packet.checksumReceived = false ∧
    lo.packet.bytesReceived = 2 ∧ lo.packet.length.toNat % 256 = 0 := by decide

theorem witness_TypeStoresAndSums : ty.packet.started = true ∧ ty.packet.checksumReceived = false ∧
    ty.packet.bytesReceived = 3 := by decide

theorem witness_IdStoresAndSums : idS.packet.started = true ∧ idS.packet.checksumReceived = false ∧
    idS.packet.bytesReceived = 4 := by decide

-- stored at the first index 2, and dropped at index 8 = CAP
theorem witness_PayloadStoresWithinCapacity :
    (pay.packet.started = true ∧ pay.packet.checksumReceived = false ∧ 5 ≤ pay.packet.bytesReceived ∧
      pay.packet.bytesReceived - 3 < pay.packet.length.toNat ∧ pay.packet.bytesReceived - 3 < pay.cfg.cap) ∧
    (full.packet.started = true ∧ full.packet.checksumReceived = false ∧ 5 ≤ full.packet.bytesReceived ∧
      full.packet.bytesReceived - 3 < full.packet.length.toNat ∧
      ¬full.packet.bytesReceived - 3 < full.cfg.cap) := by decide

theorem witness_CksumAcceptsValidFrame :
    (ck.packet.started = true ∧ ck.packet.checksumReceived = false ∧ 5 ≤ ck.packet.bytesReceived ∧
      ck.packet.length.toNat ≤ ck.packet.bytesReceived - 3 ∧ ck.packet.length.toNat ≤ ck.cfg.cap ∧
      ck.packet.runSum + 0x5F = 0xFF) ∧
    (emptyCk.packet.started = true ∧ emptyCk.packet.checksumReceived = false ∧ 5 ≤ emptyCk.packet.bytesReceived ∧
      emptyCk.packet.length.toNat ≤ emptyCk.packet.bytesReceived - 3 ∧
      emptyCk.packet.length.toNat ≤ emptyCk.cfg.cap ∧ emptyCk.packet.runSum + 0xEF = 0xFF) := by decide

theorem witness_CksumRejectsInvalidFrame :
    (overCk.packet.started = true ∧ overCk.packet.checksumReceived = false ∧ 5 ≤ overCk.packet.bytesReceived ∧
      overCk.packet.length.toNat ≤ overCk.packet.bytesReceived - 3 ∧
      overCk.cfg.cap < overCk.packet.length.toNat ∧ overCk.packet.runSum + 0x77 = 0xFF) ∧
    (ck.packet.started = true ∧ ck.packet.checksumReceived = false ∧ 5 ≤ ck.packet.bytesReceived ∧
      ck.packet.length.toNat ≤ ck.packet.bytesReceived - 3 ∧ ck.packet.runSum + 0x5E ≠ 0xFF) := by decide

theorem witness_ClassOutsideItsConditionIsRefused :
    (pay.packet.stateName = some .payload ∧ classify .payload 0x7E ≠ .idleMarker) ∧
    (base.packet.stateName = some .idle ∧ classify .idle 0x7E ≠ .idleDiscard) := by decide

theorem witness_ClassWritesOnlyItsFields :
    (∃ t, exec (classInstr .lenHi 1) hi = .next t) ∧ (∃ t, exec (classInstr .cksumByte 0x5F) ck = .next t) ∧
    (∃ t, exec (classInstr .cksumByte 0x5E) ck = .next t) ∧ (∃ t, exec (classInstr .idleMarker 0) base = .next t) ∧
    ck.packet.checksumReceived = false ∧ hi.packet.checksumReceived = false ∧ base.packet.checksumReceived = false :=
  ⟨⟨_, rfl⟩, ⟨_, rfl⟩, ⟨_, rfl⟩, ⟨_, rfl⟩, rfl, rfl, rfl⟩

theorem witness_ClassFrame :
    (∃ t, exec (classInstr .idleDiscard 1) done = .next t) ∧ (∃ t, exec (classInstr .typeByte 1) ty = .next t) ∧
    (∃ t, exec (classInstr .payloadByte 1) pay = .next t) ∧ (∃ t, exec (classInstr .payloadByte 1) full = .next t) ∧
    (∃ t, exec (classInstr .cksumByte 0x5F) ck = .next t ∧ t.packet ≠ Packet.fresh) :=
  ⟨⟨_, rfl⟩, ⟨_, rfl⟩, ⟨_, rfl⟩, ⟨_, rfl⟩, ⟨_, rfl, by decide⟩⟩

theorem witness_AssemblerFrame :
    (∃ t, exec (.pump .read) { pay with rx := [some 1] } = .next t) ∧ (∃ t, exec (.pump (.given none)) pay = .next t) ∧
    (∃ t, exec .parse { pay with rx := [some 1] } = .next t) ∧ (∃ t, exec .reset pay = .next t) ∧
    (∃ t, exec (.frameHead 0 5 8 1) base = .next t) := ⟨⟨_, rfl⟩, ⟨_, rfl⟩, ⟨_, rfl⟩, ⟨_, rfl⟩, ⟨_, rfl⟩⟩

-- the buffer clauses: the first index stored to and the one after it, index CAP, and a reset by PUMP, PARSE, FRAME_HEAD
theorem witness_AssemblerFrame_buffer :
    (∀ s ∈ [base, idS, pay, full, ck], s.packet.checksumReceived = false) ∧
    (∃ t, exec (.pump (.given (some 0x53))) pay = .next t ∧ pay.packet.bytesReceived ≤ t.packet.bytesReceived ∧
      pay.packet.bytesReceived - 3 = 2 ∧ bufLen pay.cfg.cap t.packet = 3) ∧
    (∃ t, exec (.pump (.given (some 0x16))) full = .next t ∧ full.packet.bytesReceived ≤ t.packet.bytesReceived ∧
      full.packet.bytesReceived - 3 = 8 ∧ bufLen full.cfg.cap t.packet = 8) ∧
    (∃ t, exec (.pump (.given (some 0x5E))) ck = .next t ∧ t.packet.bytesReceived < ck.packet.bytesReceived) ∧
    (∃ t, exec .parse { pay with rx := [some 0x53] } = .next t ∧ t.packet ≠ Packet.fresh ∧
      pay.packet.bytesReceived ≤ t.packet.bytesReceived) ∧
    (∃ t, exec .parse { ck with rx := [some 0x5E] } = .next t ∧
      t.packet.bytesReceived < ck.packet.bytesReceived) ∧
    (∃ t, exec (.frameHead 0 0x10 8 1) { idS with packet := { idS.packet with length := 9 } } = .next t ∧
      idS.packet.bytesReceived ≤ t.packet.bytesReceived) ∧
    (∃ t, exec (.frameHead 0 5 8 1) ck = .next t ∧ t.packet.bytesReceived < ck.packet.bytesReceived) := by
  refine ⟨by decide, ⟨_, rfl, ?_⟩, ⟨_, rfl, ?_⟩, ⟨_, rfl, ?_⟩,
    ⟨_, rfl, ?_⟩, ⟨_, rfl, ?_⟩, ⟨_, rfl, ?_⟩, ⟨_, rfl, ?_⟩⟩ <;>
    decide

theorem witness_FrameHeadFillsHeader : base.packet = Packet.fresh := by decide

-- and inside a frame: where the marker's byte is payload, and where it is a failing checksum byte
theorem witness_FrameHeadIsFivePumps : Meaningful base ∧ Meaningful pay ∧ Meaningful done ∧
    (pay.packet.started = true ∧ pay.packet.checksumReceived = false ∧ pay.packet.stateName = some .payload) ∧
    (ck.packet.started = true ∧ ck.packet.checksumReceived = false ∧ ck.packet.stateName = some .checksum ∧
      ck.packet.runSum + 0x7E ≠ 0xFF) := by decide

theorem witness_ParseIsRepeatedPump :
    Meaningful ck ∧ ({ ck with rx := [some 0x5F] } : State).rx = some 0x5F :: [] ∧ rxAvail ck = 0 ∧
    rxAvail { ck with rx := [none, some 1] } = 0 := by decide

theorem witness_ParseAnswers : Meaningful ck ∧ Meaningful done := by decide

theorem witness_ResetState : ∃ t, exec .reset { done with rx := [some 1], tx := [2] } = .next t := ⟨_, rfl⟩

/-- A state that meets the invariant in every phase of a frame. -/
theorem witness_PacketInv : PacketInv base ∧ PacketInv hi ∧ PacketInv payLast ∧ PacketInv full ∧ PacketInv overCk ∧
    PacketInv done :=
  ⟨⟨by decide, by decide, by decide, by decide, by decide, by decide, by decide, by decide, rfl⟩,
    ⟨by decide, by decide, by decide, by decide, by decide, by decide, by decide, by decide, rfl⟩,
    ⟨by decide, by decide, by decide, by decide, by decide, by decide, by decide, by decide, rfl⟩,
    ⟨by decide, by decide, by decide, by decide, by decide, by decide, by decide, by decide, rfl⟩,
    ⟨by decide, by decide, by decide, by decide, by decide, by decide, by decide, by decide, rfl⟩,
    ⟨by decide, by decide, by decide, by decide, by decide, by decide, by decide, by decide, rfl, rfl, rfl⟩⟩

theorem witness_InvariantKept : PacketInv (asked (.rxByte 0x7E)) ∧ ∃ t, step (asked (.rxByte 0x7E)) = .next t :=
  ⟨⟨by decide, by decide, by decide, by decide, by decide, by decide, by decide, by decide, rfl⟩, ⟨_, rfl⟩⟩

theorem witness_PacketKeepsACondition :
    Meaningful (asked (.rxByte 0x7E)) ∧ ∃ t, step (asked (.rxByte 0x7E)) = .next t := ⟨by decide, ⟨_, rfl⟩⟩

/-- `full` with its next payload byte, whose index is `CAP`, asked for. -/
def overAsked : State := { full with requests := [.rxByte 0x16] }

theorem witness_BufferWritesStayInBounds :
    (∃ t, step overAsked = .next t) ∧ ∀ a, a < 2 ∨ overAsked.cfg.cap ≤ a → Memory.read overAsked.buf a = none := by
  refine ⟨⟨_, rfl⟩, fun a ha => ?_⟩
  have h8 : overAsked.cfg.cap = 8 := rfl
  have hb : overAsked.buf = [(2, 0x10), (3, 0x11), (4, 0x12), (5, 0x13), (6, 0x14), (7, 0x15)] := rfl
  rw [hb]
  simp only [Memory.read]
  repeat rw [if_neg (by omega)]

theorem witness_BufferStaysCanonical : Memory.wf overAsked.buf = true ∧ ∃ t, step overAsked = .next t :=
  ⟨by decide, ⟨_, rfl⟩⟩

theorem witness_ParametersNeverChange : ∃ t, step overAsked = .next t := ⟨_, rfl⟩

theorem witness_StreamsMoveForward :
    (∃ t, exec (.encode 1 2 [] 0) base = .next t ∧ t.tx ≠ base.tx) ∧
    (∃ t, exec (.encodeAt 1 2 [] 0) base = .next t ∧ t.tx ≠ base.tx) ∧
    (∃ t, exec (.pump .read) { base with rx := [none] } = .next t ∧ t.rx ≠ ({ base with rx := [none] } : State).rx) ∧
    (∃ t, exec .parse { base with rx := [none] } = .next t ∧ t.rx ≠ ({ base with rx := [none] } : State).rx) :=
  ⟨⟨_, rfl, by decide⟩, ⟨_, rfl, by decide⟩, ⟨_, rfl, by decide⟩, ⟨_, rfl, by decide⟩⟩

theorem witness_OnlyPreconditionsRefuse :
    (∀ r ∈ [.op 7 [], .op 1 [0], .wire [0, 0, 0, 0, 0], .wire [0x7E], .op 2 [0, 0, 0xFF, 0xFE], .op 3 [0, 0, 0, 1]],
      Meaningful (asked r)) ∧
    step (asked (.op 7 [])) = .refused (.undecodable .unassignedCode) ∧
    step (asked (.op 1 [0])) = .refused (.undecodable (.operandBytes 1)) ∧
    step (asked (.wire [0, 0, 0, 0, 0])) = .refused (.undecodable .noMarker) ∧
    step (asked (.wire [0x7E])) = .refused (.undecodable .headSize) ∧
    step (asked (.op 2 [0, 0, 0xFF, 0xFE])) = .refused .payloadTooLong ∧
    step (asked (.op 3 [0, 0, 0, 1])) = .refused .payloadTooShort :=
  ⟨by decide, rfl, rfl, rfl, rfl, rfl, rfl⟩

theorem witness_CounterAndFlagsPerByte :
    (∀ s ∈ [base, hi, pay, ck], s.packet.checksumReceived = false) ∧
    (∃ t, exec (.pump (.given (some 0x7E))) base = .next t ∧ base.packet.started = false ∧
      t.packet.started = true) ∧
    (∃ t, exec (.pump (.given (some 0x5E))) ck = .next t ∧ ck.packet.started = true ∧ t.packet.started = false) ∧
    (∃ t, exec (.pump (.given (some 0x5F))) ck = .next t ∧ t.packet.checksumReceived = true) :=
  ⟨by decide, ⟨_, rfl, rfl, rfl⟩, ⟨_, rfl, rfl, rfl⟩, ⟨_, rfl, rfl⟩⟩

-- the longest frame that fits: length = CAP
theorem witness_OversizeFrameNeverReturned :
    ∃ t, exec (.pump (.given (some 0x8D))) (having (tuple true 11 8 0x01 0x02 false 0 0x72)
        [(2, 0x10), (3, 0x11), (4, 0x12), (5, 0x13), (6, 0x14), (7, 0x15)]) = .next t ∧
      t.lastResult = .frame 0x01 6 := ⟨_, rfl, by decide⟩

-- length = 6: four payload bytes 7E 00 00 00 and the checksum byte FF - 7E = 81
theorem witness_OversizeFrameNeverReturned_frameHead :
    ∃ t, exec (.frameHead 0x00 0x00 0x00 0x81) (having (tuple true 5 6 0 0 false 0 0) []) = .next t ∧
      t.lastResult = .frame 0x00 4 := ⟨_, rfl, by decide⟩

theorem witness_LiveViewIsReadable :
    (PacketInv done ∧ done.lastResult = .frame 0x08 3 ∧ 2 < (3 : Half).toNat ∧ (3 : Half).toNat ≤ 3) ∧
    base.lastResult = .noFrame :=
  ⟨⟨witness_PacketInv.2.2.2.2.2, rfl, by decide, by decide⟩, rfl⟩

theorem witness_ReturnedFrameVerifies : PacketInv done ∧ done.lastResult = .frame 0x08 3 :=
  ⟨witness_PacketInv.2.2.2.2.2, rfl⟩

-- E13 fits CAP = 8 exactly, E14 is one byte too long
theorem witness_RoundTrip :
    (∃ s1, exec (.encode 0x01 0x02 [0x10, 0x11, 0x12, 0x13, 0x14, 0x15] 6) base = .next s1 ∧
      s1.tx = base.tx ++ [0x7E, 0x00, 0x08, 0x01, 0x02, 0x10, 0x11, 0x12, 0x13, 0x14, 0x15, 0x8D]) ∧
    (∃ s1, exec (.encode 0x01 0x02 [0x10, 0x11, 0x12, 0x13, 0x14, 0x15, 0x16] 7) base = .next s1 ∧
      s1.tx = base.tx ++ [0x7E, 0x00, 0x09, 0x01, 0x02, 0x10, 0x11, 0x12, 0x13, 0x14, 0x15, 0x16, 0x77]) ∧
    base.packet = Packet.fresh ∧ (6 : Half).toNat + 2 ≤ base.cfg.cap ∧ base.cfg.cap < (7 : Half).toNat + 2 :=
  ⟨⟨_, rfl, by decide⟩, ⟨_, rfl, by decide⟩, rfl, by decide, by decide⟩

-- E3, with two more bytes behind it
theorem witness_ParseRoundTrip :
    (∃ s1, exec (.encode 0x17 0x05 [0x48, 0x69] 2) base = .next s1 ∧
      s1.tx = base.tx ++ [0x7E, 0x00, 0x04, 0x17, 0x05, 0x48, 0x69, 0x32]) ∧
    ∃ s : State, s.packet = Packet.fresh ∧
      s.rx = ([0x7E, 0x00, 0x04, 0x17, 0x05, 0x48, 0x69, 0x32] : List Byte).map some ++ [some 0x7E, none] ∧
      (2 : Half).toNat + 2 ≤ s.cfg.cap :=
  ⟨⟨_, rfl, by decide⟩,
    ⟨{ base with rx := ([0x7E, 0x00, 0x04, 0x17, 0x05, 0x48, 0x69, 0x32] : List Byte).map some ++ [some 0x7E, none] },
      rfl, rfl, by decide⟩⟩

-- A3
theorem witness_ResynchronisesAfterGarbage :
    (∀ b ∈ ([0x00, 0x41, 0xFF, 0x7D] : List Byte), b ≠ 0x7E) ∧
    (∃ s1, exec (.encode 0x17 0x05 [0x48, 0x69] 2) base = .next s1 ∧
      s1.tx = base.tx ++ [0x7E, 0x00, 0x04, 0x17, 0x05, 0x48, 0x69, 0x32]) ∧
    base.packet = Packet.fresh ∧ (2 : Half).toNat + 2 ≤ base.cfg.cap :=
  ⟨by decide, ⟨_, rfl, by decide⟩, rfl, by decide⟩

-- A4
theorem witness_RecoversAfterCorruptedChecksum :
    ∃ s1 s2, exec (.encode 0x17 0x05 [0x48, 0x69] 2) base = .next s1 ∧
      s1.tx = base.tx ++ ([0x7E, 0x00, 0x04, 0x17, 0x05, 0x48, 0x69] ++ [0x32]) ∧
      exec (.encode 0x17 0x05 [0x48, 0x69] 2) s1 = .next s2 ∧
      s2.tx = s1.tx ++ [0x7E, 0x00, 0x04, 0x17, 0x05, 0x48, 0x69, 0x32] ∧
      (0x33 : Byte) ≠ 0x32 ∧ base.packet = Packet.fresh ∧ (2 : Half).toNat + 2 ≤ base.cfg.cap :=
  ⟨_, _, rfl, by decide, rfl, by decide, by decide, rfl, by decide⟩

theorem witness_ShortLengthIsEmptyPayload : base.packet = Packet.fresh ∧ 2 ≤ base.cfg.cap ∧
    ((0 : Byte) = 0 ∨ (0 : Byte) = 1) ∧ ((1 : Byte) = 0 ∨ (1 : Byte) = 1) ∧ (0x10 : Byte) + 0x00 + 0xEF = 0xFF ∧
    (0x10 : Byte) + 0x00 + 0xEE ≠ 0xFF := by decide

theorem witness_EmptyReadsDeliverTheSameFrames : Meaningful base ∧ Meaningful ck := by decide

theorem witness_ParseDeliversTheSameFrames :
    Meaningful base ∧ ({ base with rx := [none, some 0x7E] } : State).rx.length ≤ 2 ∧ base.rx.length ≤ 0 := by decide

end Sys2Proof.Tests
end

section
/-! What one step does with the queue of requests: one equation per case of `step`, and the statement about the step. -/

namespace Sys2Proof.Machine

/-- With nothing requested the block takes no step (R9). -/
@[simp] theorem step_of_requests_nil {s : State} (hq : s.requests = []) : step s = .next s := by
  simp only [step, hq]

theorem step_eq_exec_of_decode {s : State} {r : Request} {rest : List Request} {i : Instr}
    (hq : s.requests = r :: rest) (hd : decode s.packet.stateName r = .ok i) :
    step s = exec i (s.setRequests rest) := by
  simp only [step, hq, hd]

theorem step_eq_refused_of_undecodable {s : State} {r : Request} {rest : List Request} {e : DecodeError}
    (hq : s.requests = r :: rest) (hd : decode s.packet.stateName r = .error e) :
    step s = .refused (.undecodable e) := by
  simp only [step, hq, hd]

/-- Settles O6, by the three cases of a step: the next request decodes, it does not, or there is none. -/
theorem stepRunsDecodedInstruction : Obligations.StepRunsDecodedInstruction := by
  refine ⟨?decodes, ?undecodable, ?nothingRequested⟩
  case decodes =>
    intro s r rest i hq hd
    exact step_eq_exec_of_decode hq hd
  case undecodable =>
    intro s r rest e hq hd
    exact step_eq_refused_of_undecodable hq hd
  case nothingRequested =>
    intro s hq
    exact step_of_requests_nil hq

end Sys2Proof.Machine
end

section
/-! What one received byte leaves of the state: its frame, the buffer and the Packet, per named state. -/

namespace Sys2Proof.Machine

/-! ## Everything but the Packet, the buffer and the result -/

@[simp] theorem received_cfg (st : PacketState) (b : Byte) (s : State) : (received st b s).cfg = s.cfg := by
  cases st <;> simp only [received] <;> split <;> rfl

@[simp] theorem received_rx (st : PacketState) (b : Byte) (s : State) : (received st b s).rx = s.rx := by
  cases st <;> simp only [received] <;> split <;> rfl

@[simp] theorem received_tx (st : PacketState) (b : Byte) (s : State) : (received st b s).tx = s.tx := by
  cases st <;> simp only [received] <;> split <;> rfl

@[simp] theorem received_requests (st : PacketState) (b : Byte) (s : State) :
    (received st b s).requests = s.requests := by
  cases st <;> simp only [received] <;> split <;> rfl

/-! ## The buffer -/

/-- Only a payload byte, a checksum byte and the supersede step touch the buffer. -/
theorem received_buf_unchanged (st : PacketState) (b : Byte) (s : State) (h1 : st ≠ .payload) (h2 : st ≠ .checksum)
    (h3 : st ≠ .complete) : (received st b s).buf = s.buf := by
  cases st
  case payload => exact absurd rfl h1
  case checksum => exact absurd rfl h2
  case complete => exact absurd rfl h3
  case idle => simp only [received]; split <;> rfl
  all_goals rfl

/-- R165: a payload byte whose index the buffer does not have is dropped. -/
theorem received_payload_buf (b : Byte) (s : State) :
    (received .payload b s).buf =
      if s.packet.bytesReceived - 3 < s.cfg.cap then Memory.write s.buf (s.packet.bytesReceived - 3) b
      else s.buf := rfl

/-- R151: a byte that meets a complete Packet meets an empty buffer. -/
@[simp] theorem received_complete_buf (b : Byte) (s : State) : (received .complete b s).buf = [] := by
  simp only [received]; split <;> rfl

/-- R170, R171: the checksum byte is counted and keeps the buffer and `started`, or everything is reset. -/
theorem received_checksum_cases (b : Byte) (s : State) :
    ((received .checksum b s).buf = s.buf ∧
        (received .checksum b s).packet.started = s.packet.started ∧
        (received .checksum b s).packet.bytesReceived = s.packet.bytesReceived + 1) ∨
      received .checksum b s = s.discarded := by
  simp only [received]
  split
  · exact .inl ⟨rfl, rfl, rfl⟩
  · exact .inr rfl

/-! ## The Packet -/

/-- A Packet that is not complete has another name than Complete. -/
theorem ne_complete_of_stateName {p : Packet} {st : PacketState} (h : p.stateName = some st)
    (hc : p.checksumReceived = false) : st ≠ .complete := by
  rintro rfl
  simp [(stateName_eq_complete p).1 h] at hc

/-- In the Payload state the five head bytes are counted, so R165's index is at least 2. -/
theorem five_le_bytesReceived_of_payload {p : Packet} (h : p.stateName = some .payload) : 5 ≤ p.bytesReceived := by
  obtain ⟨-, hkey⟩ := stateName_key p .payload h (by simp)
  have hpayload : p.started = true ∧ 5 ≤ p.bytesReceived ∧ p.bytesReceived - 3 < p.length.toNat := by
    simpa using hkey
  exact hpayload.2.1

/-- R158, R159: in Idle the marker starts a frame and any other byte leaves the Packet as it is. -/
theorem received_idle_packet (b : Byte) (s : State) :
    (b = 0x7E ∧ (received .idle b s).packet = { Packet.fresh with started := true, bytesReceived := 1 }) ∨
      (received .idle b s).packet = s.packet := by
  simp only [received]
  split
  · exact .inl ⟨‹_›, rfl⟩
  · exact .inr rfl

/-- R167: from the marker up to the last payload byte, a byte is counted and touches neither flag. -/
theorem received_inProgress_packet (st : PacketState) (b : Byte) (s : State) (h : s.packet.stateName = some st)
    (h1 : st ≠ .idle) (h2 : st ≠ .checksum) (h3 : st ≠ .complete) :
    (received st b s).packet.started = s.packet.started ∧
      (received st b s).packet.bytesReceived = s.packet.bytesReceived + 1 ∧
      (received st b s).packet.checksumReceived = s.packet.checksumReceived := by
  obtain ⟨-, ⟨e, -⟩ | ⟨-, hkey⟩⟩ := stateName_key _ st h h3
  · exact absurd e h1
  · rcases hkey with ⟨rfl, n⟩ | ⟨rfl, n⟩ | ⟨rfl, n⟩ | ⟨rfl, n⟩ | ⟨rfl, -⟩ | ⟨rfl, -⟩
    case inr.inr.inr.inr.inr => exact absurd rfl h2
    all_goals simp [received, *]

end Sys2Proof.Machine
end

section
/-! The frame of the encoder and the checksum generator. -/

namespace Sys2Proof.Machine

@[simp] theorem txWrite_nil (s : State) : txWrite [] s = s := by simp [txWrite, State.setTx]

/-- A view's bytes depend on neither the TX stream nor what was returned (R135). -/
@[simp] theorem viewByte_txWrite (j : Nat) (w : List Byte) (s : State) : viewByte j (txWrite w s) = viewByte j s := rfl

@[simp] theorem viewByte_setReturned (j : Nat) (s : State) (v : Returned) :
    viewByte j (s.setReturned v) = viewByte j s := rfl

/-- All that the four operations beside the assembler can do: send bytes and return; CHECKSUM and VERIFY send none. -/
theorem encoderOrChecksum_next (i : Instr) (s s' : State)
    (hi : (∃ t f p n, i = .encode t f p n) ∨ (∃ c0 c1 p n, i = .encodeAt c0 c1 p n) ∨
      (∃ t f p, i = .checksum t f p) ∨ (∃ t f p c, i = .verify t f p c))
    (h : exec i s = .next s') :
    ∃ w v, s' = (txWrite w s).setReturned v ∧
      ((∃ t f p, i = .checksum t f p) ∨ (∃ t f p c, i = .verify t f p c) → w = []) := by
  rcases hi with ⟨t, f, p, n, rfl⟩ | ⟨c0, c1, p, n, rfl⟩ | ⟨t, f, p, rfl⟩ | ⟨t, f, p, c, rfl⟩
  · obtain ⟨bytes, -, rfl⟩ := sendFrame_next _ _ _ _ _ h; exact ⟨_, _, rfl, by simp⟩
  · obtain ⟨bytes, -, rfl⟩ := sendFrame_next _ _ _ _ _ h; exact ⟨_, _, rfl, by simp⟩
  · cases h; exact ⟨[], _, by rw [txWrite_nil], fun _ => rfl⟩
  · cases h; exact ⟨[], _, by rw [txWrite_nil], fun _ => rfl⟩

/-- Settles O14: the next state is the old one with bytes sent and a value returned. -/
theorem encoderAndChecksumFrame : Obligations.EncoderAndChecksumFrame := by
  intro i s s' hi h
  obtain ⟨w, v, rfl, hw⟩ := encoderOrChecksum_next i s s' hi h
  refine ⟨rfl, fun _ => rfl, rfl, rfl, rfl, rfl, fun _ => by simp, fun hc => ?_⟩
  simp [hw hc]

end Sys2Proof.Machine
end

section
/-! The frame of the byte classes outside the Packet. -/

namespace Sys2Proof.Machine

/-- A byte is PAYLOAD exactly in the Payload state. -/
theorem classify_eq_payloadByte (st : PacketState) (b : Byte) : classify st b = .payloadByte ↔ st = .payload := by
  cases st <;> simp [classify] <;> split <;> simp

/-- A payload byte changes at most its own index of the buffer (R165). -/
theorem read_received_payload (b : Byte) (s : State) (a : Nat)
    (ha : s.packet.bytesReceived - 3 < s.cfg.cap → a ≠ s.packet.bytesReceived - 3) :
    Memory.read (received .payload b s).buf a = Memory.read s.buf a := by
  rw [received_payload_buf]
  split
  · exact Memory.read_write_other _ _ _ _ (ha ‹_›)
  · rfl

/-- Settles O33: an answered class instruction is its byte received in a named state, and that state tells what the
byte does to the buffer. -/
theorem classFrame : Obligations.ClassFrame := by
  intro c b s s' h
  obtain ⟨b', st, hst, rfl, rfl, -⟩ := classInstr_next c b s s' h
  refine ⟨by simp, by simp, by simp, by simp, ?other, ?payload, ?cksum⟩
  case other =>
    intro hc hp hk a
    rw [received_buf_unchanged st b' s (mt (classify_eq_payloadByte st b').2 hp)
      (mt (classify_eq_cksumByte st b').2 hk) (ne_complete_of_stateName hst hc)]
  case payload =>
    intro hp a ha
    obtain rfl := (classify_eq_payloadByte st b').1 hp
    exact read_received_payload b' s a ha
  case cksum =>
    intro hk hfresh a
    obtain rfl := (classify_eq_cksumByte st b').1 hk
    obtain ⟨hbuf, -⟩ | hreset := received_checksum_cases b' s
    · rw [hbuf]
    · exact absurd (congrArg State.packet hreset) hfresh

end Sys2Proof.Machine
end

section
/-! What every step keeps: a named state of the Packet, and the bounds of the buffer. -/

namespace Sys2Proof.Machine
open Sys2Proof.Safety

/-! ## The named state -/

theorem moves_keep_meaningful : Moves fun s s' => Meaningful s → Meaningful s' where
  refl _ := id
  trans _ _ _ h1 h2 := h2 ∘ h1
  rx _ _ _ _ := id
  noFrame _ _ := id
  returned _ _ := id
  fresh _ _ := rfl
  byte st b s hst _ := received_named st b s hst
  tx _ _ := id

/-- R33: the condition of a named state, read off the Packet. -/
theorem conditionOf_stateName (p : Packet) (st : PacketState) (h : p.stateName = some st) :
    (conditionOf st = .fresh ↔ p = Packet.fresh) ∧
      (conditionOf st = .complete ↔ p.checksumReceived = true) ∧
      (conditionOf st = .inProgress ↔ p.started = true ∧ p.checksumReceived = false) := by
  by_cases hst : st = .complete
  · have hc : p.checksumReceived = true := (stateName_eq_complete p).1 (hst ▸ h)
    have hne : p ≠ Packet.fresh := by rintro rfl; cases hc
    simp [hst, conditionOf, hc, hne]
  · obtain ⟨hc, ⟨rfl, rfl⟩ | ⟨hs, hkey⟩⟩ := stateName_key p st h hst
    · simp [conditionOf]
    · have hne : p ≠ Packet.fresh := by rintro rfl; cases hs
      have hcond : conditionOf st = .inProgress := by
        rcases hkey with ⟨rfl, -⟩ | ⟨rfl, -⟩ | ⟨rfl, -⟩ | ⟨rfl, -⟩ | ⟨rfl, -⟩ | ⟨rfl, -⟩ <;> rfl
      simp [hcond, hc, hs, hne]

/-- Settles O43: every move keeps a named state, and the named state tells the condition. -/
theorem packetKeepsACondition : Obligations.PacketKeepsACondition := by
  intro s s' hs h
  obtain ⟨st, hst⟩ := Option.isSome_iff_exists.1 (moves_keep_meaningful.step (fun _ _ => id) s s' h hs)
  exact ⟨st, hst, conditionOf_stateName _ st hst⟩

/-! ## The bounds of the buffer -/

/-- No byte below index 2 or at or above `CAP` has a value (R35, R55). -/
def BufferInBounds (s : State) : Prop := ∀ a, a < 2 ∨ s.cfg.cap ≤ a → Memory.read s.buf a = none

theorem bufferInBounds_of_buf_nil {s : State} (h : s.buf = []) : BufferInBounds s := by
  intro a _
  rw [h, Memory.read_nil]

theorem bufferInBounds_of_eq {s s' : State} (hcfg : s'.cfg = s.cfg) (hbuf : s'.buf = s.buf) (h : BufferInBounds s) :
    BufferInBounds s' := by
  intro a ha
  rw [hcfg] at ha
  rw [hbuf]
  exact h a ha

/-- R165: a payload byte is stored at an index from 2 up to `CAP`, or dropped. -/
theorem bufferInBounds_received_payload (b : Byte) (s : State) (hst : s.packet.stateName = some .payload)
    (h : BufferInBounds s) : BufferInBounds (received .payload b s) := by
  have hcount := five_le_bytesReceived_of_payload hst
  intro a ha
  rw [received_cfg] at ha
  rw [read_received_payload b s a (by omega)]
  exact h a ha

theorem bufferInBounds_received (st : PacketState) (b : Byte) (s : State) (hst : s.packet.stateName = some st)
    (h : BufferInBounds s) : BufferInBounds (received st b s) := by
  by_cases hp : st = .payload
  · subst hp
    exact bufferInBounds_received_payload b s hst h
  by_cases hk : st = .checksum
  · subst hk
    obtain ⟨hbuf, -⟩ | hreset := received_checksum_cases b s
    · exact bufferInBounds_of_eq (received_cfg _ b s) hbuf h
    · exact bufferInBounds_of_buf_nil (congrArg State.buf hreset)
  by_cases hc : st = .complete
  · subst hc
    exact bufferInBounds_of_buf_nil (received_complete_buf b s)
  · exact bufferInBounds_of_eq (received_cfg st b s) (received_buf_unchanged st b s hp hk hc) h

theorem moves_keep_bufferInBounds : Moves fun s s' => BufferInBounds s → BufferInBounds s' where
  refl _ := id
  trans _ _ _ h1 h2 := h2 ∘ h1
  rx _ _ _ _ := id
  noFrame _ _ := id
  returned _ _ := id
  fresh _ _ := bufferInBounds_of_buf_nil rfl
  byte := bufferInBounds_received
  tx _ _ := id

/-- Settles O44: every move keeps the bounds; the one store is a payload byte's, whose counter is at least 5. -/
theorem bufferWritesStayInBounds : Obligations.BufferWritesStayInBounds := by
  intro s s' h
  exact moves_keep_bufferInBounds.step (fun _ _ => id) s s' h

end Sys2Proof.Machine
end

section
/-! The counter and the two flags. -/

namespace Sys2Proof.Machine
open Sys2Proof.Safety

/-- R28: with the invariant the counter is at most 65535 + 4. -/
theorem bytesReceived_le_of_packetInv {s : State} (h : PacketInv s) : s.packet.bytesReceived ≤ 65539 := by
  obtain ⟨-, hfresh, -, -, hbound, hvalid, -⟩ := h
  have hlen := s.packet.length.isLt
  by_cases hc : s.packet.checksumReceived = true
  · have := (hvalid hc).2.2
    omega
  by_cases hs : s.packet.started = true
  · have := hbound hs (by simpa using hc)
    omega
  · rw [hfresh (by simpa using hs)]
    simp

/-- R27, R30: what a byte does to the counter and the flags, in every named state but Complete. -/
theorem received_counter_and_flags (st : PacketState) (b : Byte) (s : State) (h : s.packet.stateName = some st)
    (hne : st ≠ .complete) :
    ((received st b s).packet.started = true ∧
          (received st b s).packet.bytesReceived = s.packet.bytesReceived + 1 ∨
        (received st b s).packet = Packet.fresh) ∧
      (s.packet.started = false → (received st b s).packet.started = true → b = 0x7E) ∧
      (s.packet.started = true → (received st b s).packet.started = false → st = .checksum) ∧
      ((received st b s).packet.checksumReceived = true → st = .checksum) := by
  obtain ⟨hc, ⟨rfl, hfresh⟩ | ⟨hs, -⟩⟩ := stateName_key _ st h hne
  · obtain ⟨hb, hp⟩ | hp := received_idle_packet b s
    · rw [hp]
      simp [hb, hfresh]
    · simp [hp, hfresh]
  by_cases hk : st = .checksum
  · subst hk
    obtain ⟨-, hstart, hcount⟩ | hreset := received_checksum_cases b s
    · simp [hstart, hcount, hs]
    · simp [hreset]
  · have hi : st ≠ .idle := by
      rintro rfl
      simp [(stateName_eq_idle _).1 h] at hs
    obtain ⟨hstart, hcount, hflag⟩ := received_inProgress_packet st b s h hi hk hne
    simp [hstart, hcount, hflag, hs, hc]

/-- Settles O50: the bound from the invariant's clauses on the counter, the rest by the named state the byte meets. -/
theorem counterAndFlagsPerByte : Obligations.CounterAndFlagsPerByte := by
  refine ⟨fun s hs => ?bound, fun s s' b hc h => ?byte⟩
  case bound =>
    have := bytesReceived_le_of_packetInv hs
    omega
  case byte =>
    obtain ⟨⟨⟩, -⟩ | ⟨b', st, ⟨⟩, hst, rfl⟩ := pump_next_received (some b) s s' h
    simpa [hst] using received_counter_and_flags st b s hst (ne_complete_of_stateName hst hc)

end Sys2Proof.Machine
end

section
/-! The transport's two streams: a read takes one answer, a PARSE takes answers from the front, a frame is appended,
and nothing else touches a stream. -/

namespace Sys2Proof.Machine

/-! ## One read of the transport -/

theorem rxRead_of_rx_nil {s : State} (hrx : s.rx = []) : rxRead s = (none, s) := by
  simp only [rxRead, hrx]

theorem rxRead_of_rx_cons {s : State} {a : Option Byte} {rest : List (Option Byte)} (hrx : s.rx = a :: rest) :
    rxRead s = (a, s.setRx rest) := by
  simp only [rxRead, hrx]

@[simp] theorem rxRead_tx (s : State) : (rxRead s).2.tx = s.tx := by
  unfold rxRead; split <;> rfl

@[simp] theorem rxRead_rx (s : State) : (rxRead s).2.rx = s.rx.tail := by
  cases hrx : s.rx with
  | nil => rw [rxRead_of_rx_nil hrx]; exact hrx
  | cons a rest => rw [rxRead_of_rx_cons hrx]; rfl

theorem exec_pump_read (s : State) : exec (.pump .read) s = pump (rxRead s).1 (rxRead s).2 := rfl

theorem exec_pump_given (a : Option Byte) (s : State) : exec (.pump (.given a)) s = pump a s := rfl

/-- Settles O18, by the two cases of a read: the script has a next answer, or it has none. -/
theorem pumpReadConsumesOneAnswer : Obligations.PumpReadConsumesOneAnswer := by
  refine ⟨fun s a rest hrx => ?nextAnswer, fun s hrx => ?pastTheEnd⟩
  case nextAnswer =>
    rw [exec_pump_read, rxRead_of_rx_cons hrx]
    rfl
  case pastTheEnd =>
    rw [exec_pump_read, rxRead_of_rx_nil hrx, exec_pump_given]

/-! ## What the assembler leaves of the streams -/

/-- Neither stream is touched. -/
def KeepsStreams (s s' : State) : Prop := s'.tx = s.tx ∧ s'.rx = s.rx

@[simp] theorem byteStep_tx (c : ByteClass) (b : Byte) (s : State) : (byteStep c b s).tx = s.tx := by
  obtain ⟨-, -, htx, -⟩ := classEffect_frame c b s
  rw [byteStep, counterStep_tx, htx]

@[simp] theorem byteStep_rx (c : ByteClass) (b : Byte) (s : State) : (byteStep c b s).rx = s.rx := by
  obtain ⟨-, hrx, -⟩ := classEffect_frame c b s
  rw [byteStep, counterStep_rx, hrx]

theorem verdict_keepsStreams (s : State) : KeepsStreams s (verdict s) := by
  obtain ⟨-, -, h⟩ | ⟨-, h⟩ := verdict_cases s <;> rw [h] <;> exact ⟨rfl, rfl⟩

theorem pump_keepsStreams (a : Option Byte) (s s' : State) (h : pump a s = .next s') : KeepsStreams s s' := by
  obtain ⟨-, rfl⟩ | ⟨b, st, -, -, rfl⟩ := pump_next_received a s s' h
  · exact ⟨supersede_tx s, supersede_rx s⟩
  · exact ⟨received_tx st b s, received_rx st b s⟩

theorem pumpAll_keepsStreams (answers : List (Option Byte)) (s s' : State) (h : pumpAll answers s = .next s') :
    KeepsStreams s s' := by
  induction answers generalizing s with
  | nil => cases h; exact ⟨rfl, rfl⟩
  | cons a rest ih =>
    simp only [pumpAll] at h
    split at h
    · next s1 hs1 =>
      obtain ⟨htx, hrx⟩ := pump_keepsStreams a s s1 hs1
      obtain ⟨htx', hrx'⟩ := ih s1 h
      exact ⟨htx'.trans htx, hrx'.trans hrx⟩
    · cases h
    · cases h

theorem classInstr_keepsStreams (c : ByteClass) (b : Byte) (s s' : State)
    (h : exec (classInstr c b) s = .next s') : KeepsStreams s s' := by
  obtain ⟨b', st, -, -, rfl, -⟩ := classInstr_next c b s s' h
  exact ⟨received_tx st b' s, received_rx st b' s⟩

/-- PARSE's loop sends nothing, and what it leaves to come is an end of the answers it was given (R58, R180). -/
theorem parseLoop_streams (answers : List (Option Byte)) (s s' : State) (h : parseLoop answers s = .next s') :
    s'.tx = s.tx ∧ s'.rx <:+ answers := by
  induction answers generalizing s with
  | nil => cases h; exact ⟨rfl, List.suffix_rfl⟩
  | cons a rest ih =>
    cases a with
    | none => cases h; exact ⟨rfl, List.suffix_cons _ rest⟩
    | some b =>
      simp only [parseLoop] at h
      split at h
      · next st hst =>
        split at h
        · obtain ⟨htx, hrx⟩ := verdict_keepsStreams (byteStep (classify st b) b (s.setRx rest))
          cases h
          exact ⟨by simp [htx], by simp [hrx]⟩
        · obtain ⟨htx, hrx⟩ := ih _ h
          exact ⟨by simpa using htx, hrx.trans (List.suffix_cons _ rest)⟩
      · cases h

theorem execPump_read_streams (s s' : State) (h : exec (.pump .read) s = .next s') :
    s'.tx = s.tx ∧ s'.rx = s.rx.tail := by
  rw [exec_pump_read] at h
  obtain ⟨htx, hrx⟩ := pump_keepsStreams _ _ s' h
  exact ⟨htx.trans (rxRead_tx s), hrx.trans (rxRead_rx s)⟩

theorem execParse_streams (s s' : State) (h : exec .parse s = .next s') : s'.tx = s.tx ∧ s'.rx <:+ s.rx := by
  obtain ⟨htx, hrx⟩ := parseLoop_streams s.rx (supersede s) s' h
  exact ⟨htx.trans (supersede_tx s), hrx⟩

/-! ## Every instruction -/

/-- All that an instruction can do to the streams: nothing; the encoder appends to the TX stream; a reading PUMP or a
PARSE consumes the RX stream from its front. -/
theorem exec_streams (i : Instr) (s s' : State) (h : exec i s = .next s') :
    KeepsStreams s s' ∨
      (((∃ t f p n, i = .encode t f p n) ∨ ∃ c0 c1 p n, i = .encodeAt c0 c1 p n) ∧
        s.tx <+: s'.tx ∧ s'.rx = s.rx) ∨
      ((i = .pump .read ∨ i = .parse) ∧ s'.tx = s.tx ∧ s'.rx <:+ s.rx) := by
  cases i with
  | pump input =>
    cases input with
    | given a => exact .inl (pump_keepsStreams a s s' h)
    | read =>
      obtain ⟨htx, hrx⟩ := execPump_read_streams s s' h
      exact .inr (.inr ⟨.inl rfl, htx, hrx ▸ List.tail_suffix s.rx⟩)
  | parse => exact .inr (.inr ⟨.inr rfl, execParse_streams s s' h⟩)
  | encode t f p n =>
    obtain ⟨bytes, -, rfl⟩ := sendFrame_next _ _ _ s s' h
    exact .inr (.inl ⟨.inl ⟨t, f, p, n, rfl⟩, ⟨_, rfl⟩, rfl⟩)
  | encodeAt c0 c1 p n =>
    obtain ⟨bytes, -, rfl⟩ := sendFrame_next _ _ _ s s' h
    exact .inr (.inl ⟨.inr ⟨c0, c1, p, n, rfl⟩, ⟨_, rfl⟩, rfl⟩)
  | checksum t f p => cases h; exact .inl ⟨rfl, rfl⟩
  | verify t f p c => cases h; exact .inl ⟨rfl, rfl⟩
  | reset => cases h; exact .inl ⟨rfl, rfl⟩
  | idleMarker => exact .inl (classInstr_keepsStreams .idleMarker 0x7E s s' h)
  | idleDiscard b => exact .inl (classInstr_keepsStreams .idleDiscard b s s' h)
  | lenHi b => exact .inl (classInstr_keepsStreams .lenHi b s s' h)
  | lenLo b => exact .inl (classInstr_keepsStreams .lenLo b s s' h)
  | typeByte b => exact .inl (classInstr_keepsStreams .typeByte b s s' h)
  | idByte b => exact .inl (classInstr_keepsStreams .idByte b s s' h)
  | payloadByte b => exact .inl (classInstr_keepsStreams .payloadByte b s s' h)
  | cksumByte b => exact .inl (classInstr_keepsStreams .cksumByte b s s' h)
  | frameHead hi lo t f => exact .inl (pumpAll_keepsStreams _ s s' h)

/-- Settles O47: an instruction keeps both streams, or it is the encoder's and appends, or it reads and consumes. -/
theorem streamsMoveForward : Obligations.StreamsMoveForward := by
  intro i s s' h
  obtain ⟨htx, hrx⟩ | ⟨hi, ⟨w, htx⟩, hrx⟩ | ⟨hi, htx, ⟨used, hrx⟩⟩ := exec_streams i s s' h
  case inl => exact ⟨⟨[], by simp [htx]⟩, ⟨[], by simp [hrx]⟩, absurd htx, absurd hrx⟩
  case inr.inl => exact ⟨⟨w, htx.symm⟩, ⟨[], by simp [hrx]⟩, fun _ => hi, absurd hrx⟩
  case inr.inr => exact ⟨⟨[], by simp [htx]⟩, ⟨used, hrx.symm⟩, absurd htx, fun _ => hi⟩

end Sys2Proof.Machine
end

section
/-! The encoding: decoding undoes encoding and encoding undoes decoding, by the byte classes and by the operations. -/

namespace Sys2Proof

/-! ## Received bytes -/

@[simp] theorem decode_rxByte (st : PacketState) (b : Byte) :
    decode (some st) (.rxByte b) = .ok (classInstr (classify st b) b) := rfl

/-- Only the marker byte is IDLE_MARKER (R90). -/
theorem eq_start_of_classify_eq_idleMarker {st : PacketState} {b : Byte} (h : classify st b = .idleMarker) :
    b = Config.start := by
  cases st
  case idle | complete => simpa [classify] using h
  all_goals cases h

/-- A byte-class instruction is its class's instruction of its byte, and its bits are that byte. -/
theorem byteClass?_eq_some {i : Instr} {c : ByteClass} {b : Byte} (h : i.byteClass? = some (c, b)) :
    classInstr c b = i ∧ encode i = .rxByte b := by
  cases i <;> cases h <;> exact ⟨rfl, rfl⟩

/-- The class and the byte of a byte-class instruction (an IDLE_MARKER's byte is `0x7E`). -/
theorem byteClass?_classInstr {c : ByteClass} {b : Byte} (hb : c = .idleMarker → b = Config.start) :
    (classInstr c b).byteClass? = some (c, b) := by
  cases c
  case idleMarker => rw [hb rfl]; rfl
  all_goals rfl

theorem admittedAt_of_byteClass?_eq_some {i : Instr} {c : ByteClass} {b : Byte} (st : PacketState)
    (h : i.byteClass? = some (c, b)) : i.AdmittedAt st ↔ classify st b = c := by
  simp [Instr.AdmittedAt, Instr.admittedAt, h]

theorem admittedAt_of_byteClass?_eq_none {i : Instr} (st : PacketState) (h : i.byteClass? = none) :
    i.AdmittedAt st := by
  simp [Instr.AdmittedAt, Instr.admittedAt, h]

/-- The class a byte has in a state gives an instruction that is admitted there and whose bits are that byte. -/
theorem encode_classInstr_classify (st : PacketState) (b : Byte) :
    encode (classInstr (classify st b) b) = .rxByte b ∧ (classInstr (classify st b) b).AdmittedAt st := by
  have hclass := byteClass?_classInstr fun h : classify st b = .idleMarker => eq_start_of_classify_eq_idleMarker h
  exact ⟨(byteClass?_eq_some hclass).2, (admittedAt_of_byteClass?_eq_some st hclass).2 rfl⟩

/-! ## Decoding what was encoded -/

@[simp] theorem decodePump_encodePumpInput (input : PumpInput) :
    decodePump (encodePumpInput input) = .ok (.pump input) := by
  rcases input with _ | _ | b <;> rfl

/-- An operation or a frame head means the same in every state. -/
theorem decode_encode_of_byteClass?_eq_none {i : Instr} (st : Option PacketState) (h : i.byteClass? = none) :
    decode st (encode i) = .ok i := by
  cases i with
  | pump input => exact decodePump_encodePumpInput input
  | encode t f p n =>
    change Except.ok (Instr.encode t f p (joinBytes (hiByte n) (loByte n))) = _
    rw [joinBytes_hiByte_loByte]
  | encodeAt c0 c1 p n =>
    change Except.ok (Instr.encodeAt c0 c1 p (joinBytes (hiByte n) (loByte n))) = _
    rw [joinBytes_hiByte_loByte]
  | parse | checksum | verify | reset | frameHead => rfl
  | idleMarker | idleDiscard | lenHi | lenLo | typeByte | idByte | payloadByte | cksumByte => cases h

/-- Settles O3: a byte-class instruction by the class of its byte, every other by its own decoder. -/
theorem decodeInvertsEncode : Obligations.DecodeInvertsEncode := by
  intro i st hadm
  cases hclass : i.byteClass? with
  | none => exact decode_encode_of_byteClass?_eq_none (some st) hclass
  | some cb =>
    obtain ⟨c, b⟩ := cb
    obtain ⟨hinstr, hbits⟩ := byteClass?_eq_some hclass
    rw [hbits, decode_rxByte, (admittedAt_of_byteClass?_eq_some st hclass).1 hadm, hinstr]

/-! ## Encoding what was decoded -/

theorem decodePump_eq_ok {operands : List Byte} {i : Instr} (h : decodePump operands = .ok i) :
    ∃ input, i = .pump input ∧ operands = encodePumpInput input := by
  unfold decodePump at h
  split at h
  · cases h; exact ⟨.read, rfl, rfl⟩
  · split at h
    · next hf => cases h; exact ⟨.given none, rfl, by rw [hf]; rfl⟩
    · cases h
  · next b =>
    split at h
    · next hf => cases h; exact ⟨.given (some b), rfl, by rw [hf]; rfl⟩
    · cases h
  · cases h

theorem decodeParse_eq_ok {operands : List Byte} {i : Instr} (h : decodeParse operands = .ok i) :
    i = .parse ∧ operands = [] := by
  unfold decodeParse at h
  split at h <;> cases h
  exact ⟨rfl, rfl⟩

theorem decodeEncode_eq_ok {operands : List Byte} {i : Instr} (h : decodeEncode operands = .ok i) :
    ∃ t f p n, i = .encode t f p n ∧ operands = t :: f :: hiByte n :: loByte n :: p := by
  unfold decodeEncode at h
  split at h <;> cases h
  exact ⟨_, _, _, _, rfl, by simp⟩

theorem decodeEncodeAt_eq_ok {operands : List Byte} {i : Instr} (h : decodeEncodeAt operands = .ok i) :
    ∃ c0 c1 p n, i = .encodeAt c0 c1 p n ∧ operands = c0 :: c1 :: hiByte n :: loByte n :: p := by
  unfold decodeEncodeAt at h
  split at h <;> cases h
  exact ⟨_, _, _, _, rfl, by simp⟩

theorem decodeChecksum_eq_ok {operands : List Byte} {i : Instr} (h : decodeChecksum operands = .ok i) :
    ∃ t f p, i = .checksum t f p ∧ operands = t :: f :: p := by
  unfold decodeChecksum at h
  split at h <;> cases h
  exact ⟨_, _, _, rfl, rfl⟩

theorem decodeVerify_eq_ok {operands : List Byte} {i : Instr} (h : decodeVerify operands = .ok i) :
    ∃ t f p c, i = .verify t f p c ∧ operands = t :: f :: c :: p := by
  unfold decodeVerify at h
  split at h <;> cases h
  exact ⟨_, _, _, _, rfl, rfl⟩

theorem decodeReset_eq_ok {operands : List Byte} {i : Instr} (h : decodeReset operands = .ok i) :
    i = .reset ∧ operands = [] := by
  unfold decodeReset at h
  split at h <;> cases h
  exact ⟨rfl, rfl⟩

theorem decodeWire_eq_ok {bytes : List Byte} {i : Instr} (h : decodeWire bytes = .ok i) :
    ∃ hi lo t f, i = .frameHead hi lo t f ∧ bytes = [Config.start, hi, lo, t, f] := by
  unfold decodeWire at h
  split at h
  · split at h
    · next hm => cases h; exact ⟨_, _, _, _, rfl, by rw [hm]⟩
    · cases h
  · cases h

/-- Operand bytes that decode under a code are the encoding of the operation they decode to. -/
theorem encode_of_decodeOp_eq_ok {code : BitVec 3} {operands : List Byte} {i : Instr}
    (h : decodeOp code operands = .ok i) : encode i = .op code operands ∧ i.byteClass? = none := by
  obtain ⟨rfl, h⟩ | ⟨rfl, h⟩ | ⟨rfl, h⟩ | ⟨rfl, h⟩ | ⟨rfl, h⟩ | ⟨rfl, h⟩ | ⟨rfl, h⟩ := decodeOp_cases code operands i h
  · obtain ⟨input, rfl, rfl⟩ := decodePump_eq_ok h; exact ⟨rfl, rfl⟩
  · obtain ⟨rfl, rfl⟩ := decodeParse_eq_ok h; exact ⟨rfl, rfl⟩
  · obtain ⟨t, f, p, n, rfl, rfl⟩ := decodeEncode_eq_ok h; exact ⟨rfl, rfl⟩
  · obtain ⟨c0, c1, p, n, rfl, rfl⟩ := decodeEncodeAt_eq_ok h; exact ⟨rfl, rfl⟩
  · obtain ⟨t, f, p, rfl, rfl⟩ := decodeChecksum_eq_ok h; exact ⟨rfl, rfl⟩
  · obtain ⟨t, f, p, c, rfl, rfl⟩ := decodeVerify_eq_ok h; exact ⟨rfl, rfl⟩
  · obtain ⟨rfl, rfl⟩ := decodeReset_eq_ok h; exact ⟨rfl, rfl⟩

/-- Settles O4, by the format of the request: an operation, a received byte or a frame head. -/
theorem encodeInvertsDecode : Obligations.EncodeInvertsDecode := by
  intro st r i h
  cases r with
  | op code operands =>
    obtain ⟨hbits, hclass⟩ := encode_of_decodeOp_eq_ok h
    exact ⟨hbits, admittedAt_of_byteClass?_eq_none st hclass⟩
  | rxByte b =>
    cases h
    exact encode_classInstr_classify st b
  | wire bytes =>
    obtain ⟨hi, lo, t, f, rfl, rfl⟩ := decodeWire_eq_ok h
    exact ⟨rfl, admittedAt_of_byteClass?_eq_none st rfl⟩

/-- Settles O1, by running the decoder on each word. -/
theorem writtenOutWordsDecode : Obligations.WrittenOutWordsDecode := by
  unfold Obligations.WrittenOutWordsDecode
  decide

end Sys2Proof
end

section
/-! The class of a received byte, read off the Packet (R90). -/

namespace Sys2Proof.Machine
open Sys2Proof.Safety

/-- The supersede step leaves nothing for a second one to do. -/
@[simp] theorem supersede_supersede (s : State) : supersede (supersede s) = supersede s :=
  supersede_of_not_complete _ (supersede_not_complete s)

/-- R151: a PUMP sees only what the supersede step leaves. -/
theorem pump_supersede (a : Option Byte) (s : State) : pump a (supersede s) = pump a s := by
  cases a <;> simp [pump]

theorem pump_of_complete (a : Option Byte) (s : State) (h : s.packet.checksumReceived = true) :
    pump a s = pump a (freshen s) := by
  rw [← pump_supersede, supersede_of_complete s h]

/-- R34 (b): a Packet in progress with a named state has counted its marker. -/
theorem bytesReceived_ne_zero_of_meaningful {s : State} (hm : Meaningful s) (hs : s.packet.started = true)
    (hc : s.packet.checksumReceived = false) : s.packet.bytesReceived ≠ 0 := by
  intro h0
  rw [Meaningful, stateName_started _ hs hc, if_pos h0] at hm
  cases hm

/-- R34 (a): a Packet with a named state that is neither in progress nor complete is in Idle. -/
theorem stateName_eq_idle_of_meaningful {s : State} (hm : Meaningful s) (hs : s.packet.started = false)
    (hc : s.packet.checksumReceived = false) : s.packet.stateName = some .idle := by
  by_contra hidle
  have hfresh : s.packet ≠ Packet.fresh := mt (stateName_eq_idle _).2 hidle
  simp [Meaningful, Packet.stateName, hs, hc, hfresh] at hm

/-- R90 outside a frame: the first two rows. -/
theorem decode_rxByte_idle (b : Byte) :
    decode (some .idle) (.rxByte b) = .ok (if b = 0x7E then .idleMarker else .idleDiscard b) := by
  by_cases hb : b = 0x7E
  · rw [hb]; rfl
  · have hclass : classify .idle b = .idleDiscard := if_neg hb
    rw [decode_rxByte, hclass, if_neg hb]
    rfl

/-- R90 inside a frame: the rows from LEN_HI to CKSUM, by the counter. -/
theorem decode_rxByte_started (p : Packet) (b : Byte) (hs : p.started = true) (hc : p.checksumReceived = false)
    (h0 : p.bytesReceived ≠ 0) :
    decode p.stateName (.rxByte b) = .ok (
      if p.bytesReceived = 1 then .lenHi b
      else if p.bytesReceived = 2 then .lenLo b
      else if p.bytesReceived = 3 then .typeByte b
      else if p.bytesReceived = 4 then .idByte b
      else if p.bytesReceived - 3 < p.length.toNat then .payloadByte b
      else .cksumByte b) := by
  rw [stateName_started p hs hc, if_neg h0]
  split_ifs <;> rfl

/-- Settles O5: a complete Packet by its reset, an idle one by the byte, one in progress by its counter. -/
theorem receivedByteClass : Obligations.ReceivedByteClass := by
  refine ⟨fun s b hc => ⟨pump_of_complete (some b) s hc, ?complete⟩, fun s b hc hm => ⟨?table, ?lastRows⟩⟩
  case complete =>
    rw [stateName_complete _ hc, stateName_fresh]
    rfl
  case table =>
    cases hs : s.packet.started with
    | false =>
      rw [stateName_eq_idle_of_meaningful hm hs hc, decode_rxByte_idle]
      simp
    | true =>
      rw [decode_rxByte_started s.packet b hs hc (bytesReceived_ne_zero_of_meaningful hm hs hc)]
      simp
  case lastRows =>
    intro hs h1 h2 h3 h4
    have h0 := bytesReceived_ne_zero_of_meaningful hm hs hc
    omega

end Sys2Proof.Machine
end

section
/-! The frame head: five received bytes, one PUMP each (R81, R85, R89). -/

namespace Sys2Proof.Machine
open Sys2Proof.Safety

/-! ## A run of PUMPs -/

theorem pumpAll_cons_of_next {a : Option Byte} {s s1 : State} (rest : List (Option Byte)) (h : pump a s = .next s1) :
    pumpAll (a :: rest) s = pumpAll rest s1 := by
  simp only [pumpAll, h]

theorem pumpAll_cons_received {st : PacketState} {s : State} (b : Byte) (rest : List (Option Byte))
    (h : s.packet.stateName = some st) : pumpAll (some b :: rest) s = pumpAll rest (received st b s) :=
  pumpAll_cons_of_next rest (pump_received st b s h)

theorem exec_frameHead (h l t i : Byte) (s : State) :
    exec (.frameHead h l t i) s = pumpAll [some 0x7E, some h, some l, some t, some i] s := rfl

/-- In a meaningful state the PUMP of a byte answers, and the next state is meaningful again. -/
theorem pump_of_meaningful (b : Byte) {s : State} (hm : Meaningful s) :
    ∃ s1, pump (some b) s = .next s1 ∧ Meaningful s1 := by
  obtain ⟨st, hst⟩ := Option.isSome_iff_exists.1 hm
  exact ⟨received st b s, pump_received st b s hst, received_named st b s hst⟩

/-! ## The head met in Idle -/

/-- R160, R161: the two length bytes one after another make `h ‖ l`. -/
theorem shiftLeft_add_eq_joinBytes (h l : Byte) : h.setWidth 16 <<< 8 + l.setWidth 16 = joinBytes h l := by
  have hh := h.isLt
  have hl := l.isLt
  apply BitVec.eq_of_toNat_eq
  rw [joinBytes_toNat]
  simp [Nat.shiftLeft_eq]
  omega

/-- The Packet once a head has arrived in Idle: two length bytes, the type, the id and their sum (R85). -/
def Packet.ofHead (h l t i : Byte) : Packet :=
  { Packet.fresh with
    started := true, bytesReceived := 5, length := joinBytes h l, frameType := t, frameId := i, runSum := t + i }

theorem exec_frameHead_of_fresh (h l t i : Byte) (s : State) (hp : s.packet = Packet.fresh) :
    exec (.frameHead h l t i) s = .next (s.inProgress (Packet.ofHead h l t i)) := by
  have hidle : s.packet.stateName = some .idle := (stateName_eq_idle _).2 hp
  calc exec (.frameHead h l t i) s
      = pumpAll [some h, some l, some t, some i] (received .idle 0x7E s) := pumpAll_cons_received _ _ hidle
    _ = pumpAll [some l, some t, some i] (received .headerLengthHigh h _) := pumpAll_cons_received _ _ rfl
    _ = pumpAll [some t, some i] (received .headerLengthLow l _) := pumpAll_cons_received _ _ rfl
    _ = pumpAll [some i] (received .headerType t _) := pumpAll_cons_received _ _ rfl
    _ = pumpAll [] (received .headerId i _) := pumpAll_cons_received _ _ rfl
    _ = .next (s.inProgress (Packet.ofHead h l t i)) := by
      simp [pumpAll, received, Packet.ofHead, shiftLeft_add_eq_joinBytes]

/-- Settles O35: the Packet after the five bytes, with the length `h ‖ l`. -/
theorem frameHeadFillsHeader : Obligations.FrameHeadFillsHeader := by
  intro s h l t i hp
  refine ⟨joinBytes h l, joinBytes_toNat h l, rfl, ?_⟩
  rw [exec_frameHead_of_fresh h l t i s hp, hp]
  rfl

/-! ## The marker inside a frame -/

/-- A Packet in progress is neither in Idle nor Complete. -/
theorem ne_idle_of_started {p : Packet} {st : PacketState} (h : p.stateName = some st) (hs : p.started = true) :
    st ≠ .idle := by
  rintro rfl
  rw [(stateName_eq_idle p).1 h] at hs
  cases hs

/-- R90: inside a frame the position alone gives a byte its class, and it is never IDLE_MARKER. -/
theorem classify_inProgress {st : PacketState} (h1 : st ≠ .idle) (h2 : st ≠ .complete) (b b' : Byte) :
    classify st b = classify st b' ∧ classify st b ≠ .idleMarker := by
  cases st
  case idle => exact absurd rfl h1
  case complete => exact absurd rfl h2
  all_goals exact ⟨rfl, by simp [classify]⟩

/-- R150 line 4: the instruction of the class a byte has in a named state is the PUMP of that byte. -/
theorem exec_classInstr_classify {s : State} {st : PacketState} (b : Byte) (h : s.packet.stateName = some st) :
    exec (classInstr (classify st b) b) s = pump (some b) s := by
  obtain ⟨st', hst', hsame⟩ := supersede_classify s st h
  rw [exec_classInstr _ _ eq_start_of_classify_eq_idleMarker, pumpClass_eq_pump _ _ s st' hst' (hsame b)]

/-- R89: the marker's byte on a Packet in progress is data of its position, counted or the last of the frame. -/
theorem marker_inProgress {s s1 : State} {st : PacketState} (hs : s.packet.started = true)
    (hc : s.packet.checksumReceived = false) (hst : s.packet.stateName = some st)
    (hpump : pump (some 0x7E) s = .next s1) :
    (∀ b, classify st b = classify st 0x7E) ∧ classify st 0x7E ≠ .idleMarker ∧
      exec (classInstr (classify st 0x7E) 0x7E) s = .next s1 ∧
      (s1.packet.started = true ∧ s1.packet.bytesReceived = s.packet.bytesReceived + 1 ∨
        st = .checksum ∧ s1.packet = Packet.fresh) := by
  have hne := ne_complete_of_stateName hst hc
  have hclass := classify_inProgress (ne_idle_of_started hst hs) hne
  obtain rfl : received st 0x7E s = s1 := by
    rw [pump_received st 0x7E s hst] at hpump
    cases hpump; rfl
  obtain ⟨hcount, -, hstop, -⟩ := received_counter_and_flags st 0x7E s hst hne
  refine ⟨fun b => (hclass b 0x7E).1, (hclass 0x7E 0x7E).2, (exec_classInstr_classify 0x7E hst).trans hpump, ?_⟩
  exact hcount.imp_right fun hfresh => ⟨hstop hs (by rw [hfresh]; rfl), hfresh⟩

/-- Settles O36: every PUMP leaves a meaningful state for the next, and the first one's byte is data in a frame. -/
theorem frameHeadIsFivePumps : Obligations.FrameHeadIsFivePumps := by
  intro s h l t i hm
  obtain ⟨s1, hp1, hm1⟩ := pump_of_meaningful 0x7E hm
  obtain ⟨s2, hp2, hm2⟩ := pump_of_meaningful h hm1
  obtain ⟨s3, hp3, hm3⟩ := pump_of_meaningful l hm2
  obtain ⟨s4, hp4, hm4⟩ := pump_of_meaningful t hm3
  obtain ⟨s5, hp5, -⟩ := pump_of_meaningful i hm4
  refine ⟨s1, s2, s3, s4, s5, hp1, hp2, hp3, hp4, hp5, ?head, fun hs hc st hst => marker_inProgress hs hc hst hp1⟩
  case head =>
    rw [exec_frameHead, pumpAll_cons_of_next _ hp1, pumpAll_cons_of_next _ hp2, pumpAll_cons_of_next _ hp3,
      pumpAll_cons_of_next _ hp4, pumpAll_cons_of_next _ hp5]
    rfl

end Sys2Proof.Machine
end

section
/-! The Checksum Generator: its sum and its two results as exact numbers (R110, R112). -/

namespace Sys2Proof.Machine

theorem frameSum_toNat (t i : Byte) (p : List Byte) :
    (frameSum t i p).toNat = (t.toNat + i.toNat + (p.map BitVec.toNat).sum) % 256 := by
  rw [frameSum, sumBytes_toNat, List.map_cons, List.map_cons, List.sum_cons, List.sum_cons, Nat.add_assoc]

/-- R110: the subtraction from `0xFF` never borrows. -/
theorem checksumOf_toNat (t i : Byte) (p : List Byte) :
    (checksumOf t i p).toNat = 255 - (t.toNat + i.toNat + (p.map BitVec.toNat).sum) % 256 := by
  have hle : frameSum t i p ≤ 0xFF := Nat.le_of_lt_succ (frameSum t i p).isLt
  rw [checksumOf, BitVec.toNat_sub_of_le hle, frameSum_toNat]
  rfl

/-- R112: the 8-bit comparison decides the one on the exact sum. -/
theorem verifyOf_eq_decide (t i : Byte) (p : List Byte) (c : Byte) :
    verifyOf t i p c = decide ((t.toNat + i.toNat + (p.map BitVec.toNat).sum + c.toNat) % 256 = 0xFF) := by
  have hsum : (frameSum t i p + c).toNat =
      (t.toNat + i.toNat + (p.map BitVec.toNat).sum + c.toNat) % 256 := by
    rw [BitVec.toNat_add, frameSum_toNat, Nat.mod_add_mod]
  rw [verifyOf, ← hsum, Bool.eq_iff_iff, beq_iff_eq, decide_eq_true_iff]
  exact BitVec.toNat_inj.symm

theorem exec_checksum (t i : Byte) (p : List Byte) (s : State) :
    exec (.checksum t i p) s = .next (s.setReturned (.byte (checksumOf t i p))) := rfl

theorem exec_verify (t i : Byte) (p : List Byte) (c : Byte) (s : State) :
    exec (.verify t i p c) s = .next (s.setReturned (.bool (verifyOf t i p c))) := rfl

/-- R80: a frame ends with its checksum byte. -/
@[simp] theorem wireFrame_getLast? (t i : Byte) (p : List Byte) :
    (wireFrame t i p).getLast? = some (checksumOf t i p) :=
  List.getLast?_concat (l := _ :: _ :: _ :: _ :: _ :: p)

/-- Settles O7: the byte is `checksumOf`, the exact value of its sum being `frameSum_toNat`. -/
theorem checksumResult : Obligations.ChecksumResult := by
  intro t i p s
  exact ⟨checksumOf t i p, checksumOf_toNat t i p, exec_checksum t i p s, ⟨_, rfl⟩, wireFrame_getLast? t i p⟩

/-- Settles O8: the boolean is `verifyOf`, which decides the comparison on the exact sum. -/
theorem verifyResult : Obligations.VerifyResult := by
  intro t i p c s
  refine ⟨?result, ⟨_, rfl⟩⟩
  case result =>
    rw [exec_verify, verifyOf_eq_decide]
    rfl

end Sys2Proof.Machine
end

section
/-! The Frame Encoder: the bytes of a frame, and what ENCODE and ENCODE_AT answer (R131 to R136). -/

namespace Sys2Proof.Machine

/-! ## The frame on the wire -/

/-- R80, R132: for a payload of at most 65533 bytes the two length bytes hold its length plus 2 exactly. -/
theorem wireFrame_eq_append (t i : Byte) (payload : List Byte) (hmax : payload.length ≤ Config.encMax) :
    ∃ h l : Byte, h.toNat * 256 + l.toNat = payload.length + 2 ∧
      wireFrame t i payload = [0x7E, h, l, t, i] ++ payload ++ [checksumOf t i payload] := by
  refine ⟨hiByte (BitVec.ofNat 16 (payload.length + 2)), loByte (BitVec.ofNat 16 (payload.length + 2)), ?_, rfl⟩
  have hfits : payload.length + 2 < 2 ^ 16 := Nat.lt_of_le_of_lt (Nat.add_le_add_right hmax 2) (by decide)
  rw [← joinBytes_toNat, joinBytes_hiByte_loByte, BitVec.toNat_ofNat, Nat.mod_eq_of_lt hfits]

/-! ## ENCODE -/

theorem exec_encode (t i : Byte) (p : List Byte) (n : Half) (s : State) :
    exec (.encode t i p n) s = sendFrame t i (encodePayload p n) s := rfl

theorem exec_encode_of_le (t i : Byte) {p : List Byte} {n : Half} (s : State) (hmax : n.toNat ≤ Config.encMax)
    (hlen : n.toNat ≤ p.length) :
    exec (.encode t i p n) s = .next ((txWrite (wireFrame t i (p.take n.toNat)) s).setReturned .nothing) := by
  rw [exec_encode, encodePayload_ok p n hmax hlen]
  rfl

/-- Settles O11: the frame is `wireFrame` of the first `n` bytes, written out by `wireFrame_eq_append`. -/
theorem encodeAppendsFrame : Obligations.EncodeAppendsFrame := by
  intro t i p n s hmax hlen
  have htake : (p.take n.toNat).length = n.toNat := List.length_take_of_le hlen
  obtain ⟨h, l, hhl, hframe⟩ := wireFrame_eq_append t i (p.take n.toNat) (htake.trans_le hmax)
  refine ⟨h, l, checksumOf t i (p.take n.toNat), by rw [hhl, htake], checksumOf_toNat .., ?length, ?next⟩
  case length => simp [hlen]
  case next =>
    rw [exec_encode_of_le t i s hmax hlen, hframe]
    rfl

/-! ## ENCODE_AT -/

theorem exec_encodeAt (c0 c1 : Byte) (p : List Byte) (m : Half) (s : State) :
    exec (.encodeAt c0 c1 p m) s = sendFrame s.cfg.atType s.cfg.atId (encodeAtPayload c0 c1 p m) s := rfl

/-- R136: outside its preconditions ENCODE_AT has no payload. -/
theorem encodeAtPayload_error (c0 c1 : Byte) {p : List Byte} {m : Half}
    (hout : ¬(m.toNat + 2 ≤ Config.encMax ∧ m.toNat ≤ p.length)) : ∃ r, encodeAtPayload c0 c1 p m = .error r := by
  unfold encodeAtPayload
  split_ifs with hlong hshort
  · exact ⟨_, rfl⟩
  · exact ⟨_, rfl⟩
  · exact absurd ⟨Nat.le_of_not_lt hlong, Nat.le_of_not_lt hshort⟩ hout

/-- R136: under its preconditions ENCODE_AT has the payload ENCODE takes from the command bytes and the parameter. -/
theorem encodeAtPayload_eq_encodePayload (c0 c1 : Byte) {p : List Byte} {m : Half}
    (hmax : m.toNat + 2 ≤ Config.encMax) (hlen : m.toNat ≤ p.length) :
    encodeAtPayload c0 c1 p m = encodePayload (c0 :: c1 :: p.take m.toNat) (m + 2) := by
  have hm : (m + 2).toNat = m.toNat + 2 := BitVec.toNat_add_of_lt (Nat.lt_of_le_of_lt hmax (by decide))
  have hpayload : (c0 :: c1 :: p.take m.toNat).length = m.toNat + 2 := by simp [hlen]
  rw [encodeAtPayload_ok c0 c1 p m hmax hlen, encodePayload_ok _ _ (hm.trans_le hmax) (hm.trans hpayload.symm).le,
    hm, ← hpayload, List.take_length]

/-- Settles O12: the frame is `wireFrame` of the command bytes and the parameter, and ENCODE of those sends the same. -/
theorem encodeAtAppendsFrame : Obligations.EncodeAtAppendsFrame := by
  refine ⟨fun c0 c1 p m s hout => ?refused, fun c0 c1 p m => ⟨_, rfl⟩, fun c0 c1 p m s hmax hlen =>
    ⟨?encode, ?frame⟩⟩
  case refused =>
    obtain ⟨r, hr⟩ := encodeAtPayload_error c0 c1 hout
    exact ⟨r, by rw [exec_encodeAt, hr]; rfl⟩
  case encode =>
    rw [exec_encodeAt, encodeAtPayload_eq_encodePayload c0 c1 hmax hlen, exec_encode]
  case frame =>
    have hpayload : (c0 :: c1 :: p.take m.toNat).length = m.toNat + 2 := by simp [hlen]
    obtain ⟨h, l, hhl, hframe⟩ := wireFrame_eq_append s.cfg.atType s.cfg.atId _ (hpayload.trans_le hmax)
    refine ⟨h, l, checksumOf s.cfg.atType s.cfg.atId (c0 :: c1 :: p.take m.toNat), by rw [hhl, hpayload],
      ?checksum, ?length, ?next⟩
    case checksum => simp [checksumOf_toNat, Nat.add_assoc]
    case length => simp [hlen]
    case next =>
      rw [exec_encodeAt, encodeAtPayload_ok c0 c1 p m hmax hlen, sendFrame, hframe]
      rfl

end Sys2Proof.Machine
end

section
/-! One byte as an instruction of its class: the state each class leaves (R158 to R166). -/

namespace Sys2Proof.Machine

/-- R150 line 4: where a byte is in a class, the class's instruction answers as the byte received. -/
theorem exec_classInstr_received {c : ByteClass} {st : PacketState} {s : State} (b : Byte)
    (hst : s.packet.stateName = some st) (hc : classify st b = c) :
    exec (classInstr c b) s = .next (received st b s) := by
  rw [← hc, exec_classInstr_classify b hst, pump_received st b s hst]

/-- Settles O19: the byte decodes only in a named state, and there to the instruction of its class. -/
theorem pumpOfByteIsItsClass : Obligations.PumpOfByteIsItsClass := by
  intro s b i hdec
  cases hst : s.packet.stateName with
  | none => rw [hst] at hdec; cases hdec
  | some st =>
    rw [hst, decode_rxByte] at hdec
    cases hdec
    exact (exec_classInstr_classify b hst).symm

/-! ## Outside a frame -/

/-- Settles O22: the marker is received in Idle. -/
theorem idleMarkerStartsFrame : Obligations.IdleMarkerStartsFrame := by
  intro s hp
  have hst := (stateName_eq_idle _).2 hp
  refine ⟨?next, (exec_classInstr_classify 0x7E hst).symm⟩
  case next =>
    rw [hp]
    exact exec_classInstr_received (c := .idleMarker) 0x7E hst rfl

/-- R159: in Idle any other byte than the marker leaves everything but the result. -/
theorem received_idle_of_ne_start {b : Byte} (hb : b ≠ 0x7E) (s : State) :
    received .idle b s = s.setResult .noFrame :=
  if_neg hb

/-- Settles O23: the byte is received in Idle and is not the marker. -/
theorem idleDiscardDropsByte : Obligations.IdleDiscardDropsByte := by
  intro s b hp hb
  have hst := (stateName_eq_idle _).2 hp
  have hclass : classify .idle b = .idleDiscard := if_neg hb
  have hnext : exec (.idleDiscard b) s = .next (received .idle b s) := exec_classInstr_received b hst hclass
  rw [exec_pump_given, pump_received .idle b s hst, hnext, received_idle_of_ne_start hb]
  exact ⟨rfl, rfl⟩

/-! ## The head -/

/-- R160: the byte as the high half, the low half 0. -/
theorem shiftLeft_eight_toNat (b : Byte) : (b.setWidth 16 <<< 8).toNat = b.toNat * 256 := by
  have hb := b.isLt
  simp [Nat.shiftLeft_eq]
  omega

/-- Settles O24: the byte is received in HeaderLengthHigh. -/
theorem lenHiSetsHighByte : Obligations.LenHiSetsHighByte := by
  intro s b hs hc hn
  have hst : s.packet.stateName = some .headerLengthHigh := by rw [stateName_started _ hs hc, hn]; rfl
  exact ⟨b.setWidth 16 <<< 8, shiftLeft_eight_toNat b, exec_classInstr_received (c := .lenHi) b hst rfl⟩

/-- R161: the sum of the length and the byte is a 16-bit sum, exact where the low half is 0. -/
theorem add_setWidth_toNat (v : Half) (b : Byte) :
    (v + b.setWidth 16).toNat = (v.toNat + b.toNat) % 65536 := by
  have hb := b.isLt
  simp

/-- Settles O25: the byte is received in HeaderLengthLow; a length with low half 0 leaves room for any byte. -/
theorem lenLoCompletesLength : Obligations.LenLoCompletesLength := by
  intro s b hs hc hn
  have hst : s.packet.stateName = some .headerLengthLow := by rw [stateName_started _ hs hc, hn]; rfl
  refine ⟨s.packet.length + b.setWidth 16, add_setWidth_toNat _ b, fun hlow => ?exact,
    exec_classInstr_received (c := .lenLo) b hst rfl⟩
  case exact =>
    have hv := s.packet.length.isLt
    have hb := b.isLt
    rw [add_setWidth_toNat]
    omega

/-- Settles O26: the byte is received in HeaderType. -/
theorem typeStoresAndSums : Obligations.TypeStoresAndSums := by
  intro s b hs hc hn
  have hst : s.packet.stateName = some .headerType := by rw [stateName_started _ hs hc, hn]; rfl
  exact exec_classInstr_received (c := .typeByte) b hst rfl

/-- Settles O27: the byte is received in HeaderId. -/
theorem idStoresAndSums : Obligations.IdStoresAndSums := by
  intro s b hs hc hn
  have hst : s.packet.stateName = some .headerId := by rw [stateName_started _ hs hc, hn]; rfl
  exact exec_classInstr_received (c := .idByte) b hst rfl

/-! ## The payload and the checksum byte -/

/-- R32: once the head is in, the declared length tells Payload from Checksum. -/
theorem stateName_of_head {p : Packet} (hs : p.started = true) (hc : p.checksumReceived = false)
    (hn : 5 ≤ p.bytesReceived) :
    p.stateName = if p.bytesReceived - 3 < p.length.toNat then some .payload else some .checksum := by
  rw [stateName_started p hs hc, if_neg (by omega), if_neg (by omega), if_neg (by omega), if_neg (by omega),
    if_neg (by omega)]

theorem stateName_eq_payload {p : Packet} (hs : p.started = true) (hc : p.checksumReceived = false)
    (hn : 5 ≤ p.bytesReceived) (hlt : p.bytesReceived - 3 < p.length.toNat) : p.stateName = some .payload :=
  (stateName_of_head hs hc hn).trans (if_pos hlt)

theorem stateName_eq_checksum {p : Packet} (hs : p.started = true) (hc : p.checksumReceived = false)
    (hn : 5 ≤ p.bytesReceived) (hle : p.length.toNat ≤ p.bytesReceived - 3) : p.stateName = some .checksum :=
  (stateName_of_head hs hc hn).trans (if_neg (Nat.not_lt.2 hle))

/-- Settles O28: the byte is received in Payload, and its store is the one write of the buffer. -/
theorem payloadStoresWithinCapacity : Obligations.PayloadStoresWithinCapacity := by
  intro s b hs hc hn hlt
  have hst := stateName_eq_payload hs hc hn hlt
  refine ⟨(received .payload b s).buf, exec_classInstr_received (c := .payloadByte) b hst rfl, fun hcap => ?stored,
    read_received_payload b s⟩
  case stored => rw [received_payload_buf, if_pos hcap, Memory.read_write_same]

/-- Settles O29: the byte is received in Checksum and the verdict passes. -/
theorem cksumAcceptsValidFrame : Obligations.CksumAcceptsValidFrame := by
  intro s b hs hc hn hle hcap hsum
  have hst := stateName_eq_checksum hs hc hn hle
  refine ⟨reportedLen s.packet.length, ?reported, ?next⟩
  case reported =>
    rw [reportedLen_toNat]
    split_ifs with h2
    · rfl
    · omega
  case next =>
    have hnext : exec (.cksumByte b) s = .next (received .checksum b s) := exec_classInstr_received b hst rfl
    exact hnext.trans (congrArg Host.Outcome.next (if_pos ⟨hcap, hsum⟩))

/-- R171: the checksum byte of a frame that is too long or has a wrong sum resets the Packet. -/
theorem received_checksum_of_invalid {b : Byte} {s : State}
    (h : s.cfg.cap < s.packet.length.toNat ∨ s.packet.runSum + b ≠ 0xFF) :
    received .checksum b s = s.discarded := by
  refine if_neg fun ⟨hcap, hsum⟩ => ?_
  exact h.elim (Nat.not_lt.2 hcap) (absurd hsum)

/-- Settles O30: the byte is received in Checksum and the verdict fails. -/
theorem cksumRejectsInvalidFrame : Obligations.CksumRejectsInvalidFrame := by
  intro s b hs hc hn hle hbad
  have hst := stateName_eq_checksum hs hc hn hle
  have hnext : exec (.cksumByte b) s = .next (received .checksum b s) := exec_classInstr_received b hst rfl
  rw [hnext, received_checksum_of_invalid hbad]

end Sys2Proof.Machine
end

section
/-! A read that finds no byte: the assembler does not look at the last result, so all that such a PUMP does is the
supersede step, which the next one would do anyway (R151, R152, R184). -/

namespace Sys2Proof.Machine
open Sys2Proof.Safety

/-! ## The assembler does not look at the last result -/

theorem supersede_setResult (s : State) (r : ParseResult) :
    supersede (s.setResult r) = (supersede s).setResult r := by
  unfold supersede
  by_cases h : s.packet.checksumReceived = true <;> simp only [State.setResult_packet, h] <;> rfl

theorem finish_setResult (s : State) (r : ParseResult) : finish (s.setResult r) = finish s := by
  unfold finish
  rw [State.setResult_packet, verdict_setResult]
  rfl

/-- A PUMP overwrites the last result, whatever it was. -/
theorem pump_setResult (a : Option Byte) (s : State) (r : ParseResult) : pump a (s.setResult r) = pump a s := by
  cases a with
  | none => rw [pump, supersede_setResult]; rfl
  | some b =>
    simp only [pump, supersede_setResult, State.setResult_packet, byteStep_setResult, finish_setResult]

theorem rxRead_setResult (s : State) (r : ParseResult) :
    rxRead (s.setResult r) = ((rxRead s).1, (rxRead s).2.setResult r) := by
  cases hrx : s.rx with
  | nil => rw [rxRead_of_rx_nil hrx, rxRead_of_rx_nil ((State.setResult_rx s r).trans hrx)]
  | cons a rest => rw [rxRead_of_rx_cons hrx, rxRead_of_rx_cons ((State.setResult_rx s r).trans hrx)]; rfl

theorem exec_pump_setResult (x : PumpInput) (s : State) (r : ParseResult) :
    exec (.pump x) (s.setResult r) = exec (.pump x) s := by
  cases x with
  | given a => exact pump_setResult a s r
  | read => rw [exec_pump_read, exec_pump_read, rxRead_setResult, pump_setResult]

theorem exec_parse_setResult (s : State) (r : ParseResult) : exec .parse (s.setResult r) = exec .parse s := by
  change parseLoop s.rx (supersede (s.setResult r)) = parseLoop s.rx (supersede s)
  rw [supersede_setResult, parseLoop_setResult]

/-! ## The frames PUMPs deliver -/

theorem delivered_of_noFrame {s : State} (h : s.lastResult = .noFrame) : delivered s = none := by
  simp only [delivered, h]

@[simp] theorem pumpFrames_nil (s : State) : pumpFrames [] s = [] := rfl

theorem pumpFrames_cons_of_next {a : Option Byte} {s s1 : State} (rest : List (Option Byte))
    (h : pump a s = .next s1) : pumpFrames (a :: rest) s = (delivered s1).toList ++ pumpFrames rest s1 := by
  simp only [pumpFrames, exec_pump_given, h]

/-- The frames to come depend on the state only through what the next PUMP makes of it. -/
theorem pumpFrames_congr {s s' : State} (h : ∀ a, pump a s = pump a s') (answers : List (Option Byte)) :
    pumpFrames answers s = pumpFrames answers s' := by
  cases answers with
  | nil => rfl
  | cons a rest => simp only [pumpFrames, exec_pump_given, h]

theorem pumpFrames_setResult (answers : List (Option Byte)) (s : State) (r : ParseResult) :
    pumpFrames answers (s.setResult r) = pumpFrames answers s :=
  pumpFrames_congr (fun a => pump_setResult a s r) answers

/-- R152, R184: a PUMP without a byte delivers nothing and changes nothing of what comes after it. -/
theorem pumpFrames_cons_none (rest : List (Option Byte)) (s : State) :
    pumpFrames (none :: rest) s = pumpFrames rest s := by
  rw [pumpFrames_cons_of_next (s1 := (supersede s).setResult .noFrame) rest rfl, delivered_of_noFrame rfl]
  exact pumpFrames_congr (fun a => (pump_setResult a _ _).trans (pump_supersede a s)) rest

/-- Settles O16: a PUMP without a byte is the supersede step and the result NoFrame, which no later operation reads. -/
theorem pumpNoneOnlySupersedes : Obligations.PumpNoneOnlySupersedes := by
  refine fun s => ⟨fun hc => ⟨s.setResult .noFrame, ?inProgress, rfl, fun x => exec_pump_setResult x s _,
    exec_parse_setResult s _, pumpFrames_setResult s.rx s _⟩, fun hc => ⟨(freshen s).setResult .noFrame, ?complete,
    rfl, fun _ => rfl⟩⟩
  case inProgress => rw [exec_pump_given, pump, supersede_of_not_complete s hc]
  case complete => rw [exec_pump_given, pump, supersede_of_complete s hc]

/-- Settles O59, by induction on the answers: a none may be left out, and a byte is received on both sides alike. -/
theorem emptyReadsDeliverTheSameFrames : Obligations.EmptyReadsDeliverTheSameFrames := by
  intro answers
  induction answers with
  | nil => exact fun _ _ => rfl
  | cons a rest ih =>
    intro s hm
    cases a with
    | none =>
      rw [pumpFrames_cons_none, ih s hm]
      rfl
    | some b =>
      obtain ⟨s1, hp, hm1⟩ := pump_of_meaningful b hm
      have hfilter : (some b :: rest).filter Option.isSome = some b :: rest.filter Option.isSome := rfl
      rw [hfilter, pumpFrames_cons_of_next _ hp, pumpFrames_cons_of_next _ hp, ih s1 hm1]

end Sys2Proof.Machine
end

section
/-! The frames a run of PUMPs over a whole frame delivers (R178, R187). -/

namespace Sys2Proof.Machine
open Sys2Proof.Safety

/-! ## Bytes that deliver nothing -/

theorem pumpFrames_cons_received {st : PacketState} {s : State} (b : Byte) (rest : List (Option Byte))
    (h : s.packet.stateName = some st) :
    pumpFrames (some b :: rest) s =
      (delivered (received st b s)).toList ++ pumpFrames rest (received st b s) :=
  pumpFrames_cons_of_next rest (pump_received st b s h)

/-- R170: only a checksum byte can return a frame. -/
theorem received_lastResult {st : PacketState} (hst : st ≠ .checksum) (b : Byte) (s : State) :
    (received st b s).lastResult = .noFrame := by
  cases st
  case checksum => exact absurd rfl hst
  case idle => simp only [received]; split <;> rfl
  case complete => simp only [received]; split <;> rfl
  all_goals rfl

theorem pumpFrames_cons_of_ne_checksum {st : PacketState} {s : State} (b : Byte) (rest : List (Option Byte))
    (h : s.packet.stateName = some st) (hst : st ≠ .checksum) :
    pumpFrames (some b :: rest) s = pumpFrames rest (received st b s) := by
  rw [pumpFrames_cons_received b rest h, delivered_of_noFrame (received_lastResult hst b s)]
  rfl

/-- R159, R178: bytes without a marker pass a fresh Packet and leave no trace. -/
theorem pumpFrames_garbage {g : List Byte} (hg : ∀ b ∈ g, b ≠ 0x7E) {s : State} (hp : s.packet = Packet.fresh)
    (rest : List (Option Byte)) : pumpFrames (g.map some ++ rest) s = pumpFrames rest s := by
  induction g with
  | nil => rfl
  | cons b g ih =>
    obtain ⟨hb, hg⟩ := List.forall_mem_cons.1 hg
    rw [List.map_cons, List.cons_append,
      pumpFrames_cons_of_ne_checksum b _ ((stateName_eq_idle _).2 hp) (by simp), received_idle_of_ne_start hb,
      pumpFrames_setResult, ih hg]

/-- R158 to R163: the head of a frame on a fresh Packet. -/
theorem pumpFrames_head (h l t i : Byte) {s : State} (hp : s.packet = Packet.fresh) (rest : List (Option Byte)) :
    pumpFrames (some 0x7E :: some h :: some l :: some t :: some i :: rest) s =
      pumpFrames rest (s.inProgress (Packet.ofHead h l t i)) := by
  have hidle : s.packet.stateName = some .idle := (stateName_eq_idle _).2 hp
  calc pumpFrames (some 0x7E :: some h :: some l :: some t :: some i :: rest) s
      = pumpFrames (some h :: some l :: some t :: some i :: rest) (received .idle 0x7E s) :=
        pumpFrames_cons_of_ne_checksum _ _ hidle (by simp)
    _ = pumpFrames (some l :: some t :: some i :: rest) (received .headerLengthHigh h _) :=
        pumpFrames_cons_of_ne_checksum _ _ rfl (by simp)
    _ = pumpFrames (some t :: some i :: rest) (received .headerLengthLow l _) :=
        pumpFrames_cons_of_ne_checksum _ _ rfl (by simp)
    _ = pumpFrames (some i :: rest) (received .headerType t _) :=
        pumpFrames_cons_of_ne_checksum _ _ rfl (by simp)
    _ = pumpFrames rest (received .headerId i _) := pumpFrames_cons_of_ne_checksum _ _ rfl (by simp)
    _ = pumpFrames rest (s.inProgress (Packet.ofHead h l t i)) := by
      simp [received, Packet.ofHead, shiftLeft_add_eq_joinBytes]

/-! ## A run of payload bytes -/

/-- The state after payload bytes, one after another. -/
def receivedPayload (q : List Byte) (s : State) : State := q.foldl (fun u b => received .payload b u) s

theorem receivedPayload_cons (b : Byte) (q : List Byte) (s : State) :
    receivedPayload (b :: q) s = receivedPayload q (received .payload b s) := rfl

@[simp] theorem receivedPayload_cfg (q : List Byte) (s : State) : (receivedPayload q s).cfg = s.cfg := by
  induction q generalizing s with
  | nil => rfl
  | cons b q ih => rw [receivedPayload_cons, ih, received_cfg]

/-- R165, R167: payload bytes are summed and counted, and nothing else of the Packet changes. -/
theorem receivedPayload_packet (q : List Byte) (s : State) :
    (receivedPayload q s).packet =
      { s.packet with
        runSum := s.packet.runSum + sumBytes q, bytesReceived := s.packet.bytesReceived + q.length } := by
  induction q generalizing s with
  | nil => simp [receivedPayload, sumBytes]
  | cons b q ih =>
    rw [receivedPayload_cons, ih]
    simp [received, sumBytes, BitVec.add_assoc, Nat.add_assoc, Nat.add_comm 1]

/-- R165: payload bytes are stored from the first one's index on. -/
theorem read_receivedPayload_of_lt (q : List Byte) (s : State) (hn : 3 ≤ s.packet.bytesReceived) {a : Nat}
    (ha : a < s.packet.bytesReceived - 3) : Memory.read (receivedPayload q s).buf a = Memory.read s.buf a := by
  induction q generalizing s with
  | nil => rfl
  | cons b q ih =>
    have hcount : (received .payload b s).packet.bytesReceived = s.packet.bytesReceived + 1 := rfl
    rw [receivedPayload_cons, ih _ (by omega) (by omega), read_received_payload b s a fun _ => ha.ne]

/-- R165: payload bytes that fit are read back in order. -/
theorem read_receivedPayload (q : List Byte) (s : State) (hn : 3 ≤ s.packet.bytesReceived)
    (hfit : s.packet.bytesReceived - 3 + q.length ≤ s.cfg.cap) {j : Nat} (hj : j < q.length) :
    Memory.read (receivedPayload q s).buf (s.packet.bytesReceived - 3 + j) = some q[j] := by
  induction q generalizing s j with
  | nil => cases hj
  | cons b q ih =>
    have hcount : (received .payload b s).packet.bytesReceived = s.packet.bytesReceived + 1 := rfl
    rw [List.length_cons] at hfit hj
    rw [receivedPayload_cons]
    cases j with
    | zero =>
      rw [read_receivedPayload_of_lt q _ (by omega) (by omega), received_payload_buf, if_pos (by omega)]
      exact Memory.read_write_same _ _ b
    | succ j =>
      have hindex : s.packet.bytesReceived - 3 + (j + 1) = (received .payload b s).packet.bytesReceived - 3 + j := by
        omega
      rw [hindex, ih _ (by omega) (by rw [received_cfg]; omega) (by omega)]
      rfl

/-- Payload bytes within the declared length deliver nothing. -/
theorem pumpFrames_payload (q : List Byte) {s : State} (hs : s.packet.started = true)
    (hc : s.packet.checksumReceived = false) (hn : 5 ≤ s.packet.bytesReceived)
    (hlen : s.packet.bytesReceived - 3 + q.length ≤ s.packet.length.toNat) (rest : List (Option Byte)) :
    pumpFrames (q.map some ++ rest) s = pumpFrames rest (receivedPayload q s) := by
  induction q generalizing s with
  | nil => rfl
  | cons b q ih =>
    have hcount : (received .payload b s).packet.bytesReceived = s.packet.bytesReceived + 1 := rfl
    have hlength : (received .payload b s).packet.length = s.packet.length := rfl
    rw [List.length_cons] at hlen
    rw [List.map_cons, List.cons_append,
      pumpFrames_cons_of_ne_checksum b _ (stateName_eq_payload hs hc hn (by omega)) (by simp),
      ih (s := received .payload b s) hs hc (by omega) (by rw [hlength]; omega), receivedPayload_cons]

/-! ## A whole frame -/

/-- A frame on the wire up to its checksum byte (R80). -/
def wireFrameBody (t i : Byte) (payload : List Byte) : List Byte :=
  let length : Half := BitVec.ofNat 16 (payload.length + 2)
  Config.start :: hiByte length :: loByte length :: t :: i :: payload

theorem wireFrame_eq_body_append (t i : Byte) (payload : List Byte) :
    wireFrame t i payload = wireFrameBody t i payload ++ [checksumOf t i payload] := rfl

/-- The state at the checksum byte of a frame that began in `s`. -/
def atChecksum (t i : Byte) (payload : List Byte) (s : State) : State :=
  let length : Half := BitVec.ofNat 16 (payload.length + 2)
  receivedPayload payload (s.inProgress (Packet.ofHead (hiByte length) (loByte length) t i))

@[simp] theorem atChecksum_cfg (t i : Byte) (payload : List Byte) (s : State) :
    (atChecksum t i payload s).cfg = s.cfg :=
  receivedPayload_cfg payload _

theorem atChecksum_packet (t i : Byte) (payload : List Byte) (s : State) :
    (atChecksum t i payload s).packet =
      { Packet.fresh with
        started := true, bytesReceived := 5 + payload.length, length := BitVec.ofNat 16 (payload.length + 2),
        frameType := t, frameId := i, runSum := frameSum t i payload } := by
  rw [atChecksum, receivedPayload_packet]
  simp [Packet.ofHead, frameSum, sumBytes, BitVec.add_assoc]

/-- A payload ENCODE accepts has a length the two length bytes hold. -/
theorem declaredLength_toNat {payload : List Byte} (hmax : payload.length ≤ Config.encMax) :
    (BitVec.ofNat 16 (payload.length + 2)).toNat = payload.length + 2 := by
  rw [BitVec.toNat_ofNat, Nat.mod_eq_of_lt (Nat.lt_of_le_of_lt (Nat.add_le_add_right hmax 2) (by decide))]

/-- R178: on a fresh Packet a frame delivers nothing before its checksum byte. -/
theorem pumpFrames_wireFrameBody (t i : Byte) {payload : List Byte} (hmax : payload.length ≤ Config.encMax)
    {s : State} (hp : s.packet = Packet.fresh) (rest : List (Option Byte)) :
    pumpFrames ((wireFrameBody t i payload).map some ++ rest) s = pumpFrames rest (atChecksum t i payload s) := by
  refine (pumpFrames_head _ _ t i hp _).trans (pumpFrames_payload payload rfl rfl (Nat.le_refl 5) ?fits rest)
  case fits =>
    simp only [Packet.ofHead, joinBytes_hiByte_loByte, declaredLength_toNat hmax]
    omega

/-- R170: on a fresh Packet a frame delivers what its checksum byte returns. -/
theorem pumpFrames_body_append (t i c : Byte) {payload : List Byte} (hmax : payload.length ≤ Config.encMax)
    {s : State} (hp : s.packet = Packet.fresh) (rest : List (Option Byte)) :
    pumpFrames ((wireFrameBody t i payload ++ [c]).map some ++ rest) s =
      (delivered (received .checksum c (atChecksum t i payload s))).toList ++
        pumpFrames rest (received .checksum c (atChecksum t i payload s)) := by
  have hst : (atChecksum t i payload s).packet.stateName = some .checksum := by
    rw [atChecksum_packet]
    refine stateName_eq_checksum rfl rfl (Nat.le_add_right 5 _) ?_
    simp only [declaredLength_toNat hmax]
    omega
  rw [List.map_append, List.append_assoc, pumpFrames_wireFrameBody t i hmax hp]
  exact pumpFrames_cons_received c rest hst

/-- R171, R187: a frame with another checksum byte delivers nothing and leaves a fresh Packet behind. -/
theorem pumpFrames_corrupted {t i c : Byte} {payload : List Byte} (hc : c ≠ checksumOf t i payload)
    (hmax : payload.length ≤ Config.encMax) {s : State} (hp : s.packet = Packet.fresh)
    (rest : List (Option Byte)) :
    pumpFrames ((wireFrameBody t i payload ++ [c]).map some ++ rest) s =
      pumpFrames rest (atChecksum t i payload s).discarded := by
  have hsum : (atChecksum t i payload s).packet.runSum + c ≠ 0xFF := by
    rw [atChecksum_packet]
    exact fun h => hc (BitVec.eq_sub_iff_add_eq.2 ((BitVec.add_comm _ _).trans h))
  rw [pumpFrames_body_append t i c hmax hp, received_checksum_of_invalid (.inr hsum)]
  rfl

/-- R172: a view over buffer bytes that stand from index 2 on holds them in order. -/
theorem viewBytes_eq_of_read {s : State} {q : List Byte}
    (h : ∀ j (hj : j < q.length), Memory.read s.buf (2 + j) = some q[j]) : viewBytes s q.length = q := by
  have hread : (List.range q.length).map (fun j => Memory.read s.buf (2 + j)) = q.map some := by
    refine List.ext_getElem (by simp) fun j hj _ => ?_
    rw [List.length_map, List.length_range] at hj
    simp [h j hj]
  calc viewBytes s q.length
      = ((List.range q.length).map (fun j => Memory.read s.buf (2 + j))).filterMap id := by
        rw [List.filterMap_map]; rfl
    _ = q := by rw [hread, List.filterMap_map]; exact List.filterMap_some

/-- R139, R165: the payload of a frame that fits stands in the buffer from index 2 on. -/
theorem read_atChecksum (t i : Byte) {payload : List Byte} {s : State} (hcap : payload.length + 2 ≤ s.cfg.cap)
    {j : Nat} (hj : j < payload.length) :
    Memory.read (atChecksum t i payload s).buf (2 + j) = some payload[j] :=
  read_receivedPayload payload (s.inProgress (Packet.ofHead _ _ t i)) (by simp [Packet.ofHead])
    (by simpa [Packet.ofHead, Nat.add_comm] using hcap) hj

/-- R170, R172: a checksum byte whose verdict passes delivers the frame's type and the view of the buffer it met. -/
theorem delivered_received_checksum {b : Byte} {s : State} (hcap : s.packet.length.toNat ≤ s.cfg.cap)
    (hsum : s.packet.runSum + b = 0xFF) :
    delivered (received .checksum b s) =
      some (s.packet.frameType, viewBytes s (reportedLen s.packet.length).toNat) := by
  rw [received, if_pos ⟨hcap, hsum⟩]
  rfl

/-- R110: the checksum byte fills the sum up to `0xFF`. -/
theorem frameSum_add_checksumOf (t i : Byte) (payload : List Byte) :
    frameSum t i payload + checksumOf t i payload = 0xFF :=
  (BitVec.add_comm _ _).trans (BitVec.sub_add_cancel _ _)

/-- R139, R170: its own checksum byte delivers a frame that fits. -/
theorem delivered_atChecksum (t i : Byte) {payload : List Byte} (hmax : payload.length ≤ Config.encMax) {s : State}
    (hcap : payload.length + 2 ≤ s.cfg.cap) :
    delivered (received .checksum (checksumOf t i payload) (atChecksum t i payload s)) = some (t, payload) := by
  have hlen := declaredLength_toNat hmax
  rw [delivered_received_checksum]
  · simp only [atChecksum_packet, reportedLen_toNat, hlen, Nat.add_sub_cancel]
    rw [viewBytes_eq_of_read fun _ => read_atChecksum t i hcap]
  · rwa [atChecksum_packet, atChecksum_cfg, hlen]
  · rw [atChecksum_packet]
    exact frameSum_add_checksumOf t i payload

/-- R139, R170: a frame that fits is delivered, once. -/
theorem pumpFrames_wireFrame {t i : Byte} {payload : List Byte} (hmax : payload.length ≤ Config.encMax)
    {s : State} (hp : s.packet = Packet.fresh) (hcap : payload.length + 2 ≤ s.cfg.cap) :
    pumpFrames ((wireFrame t i payload).map some) s = [(t, payload)] := by
  have h := pumpFrames_body_append t i (checksumOf t i payload) hmax hp []
  rw [delivered_atChecksum t i hmax hcap] at h
  simpa [wireFrame_eq_body_append] using h

/-! ## The bytes an ENCODE sends -/

/-- R131: ENCODE's payload, where it is not refused. -/
theorem encodePayload_eq_ok {p bytes : List Byte} {n : Half} (h : encodePayload p n = .ok bytes) :
    n.toNat ≤ Config.encMax ∧ n.toNat ≤ p.length ∧ bytes = p.take n.toNat := by
  unfold encodePayload at h
  split_ifs at h with hlong hshort
  cases h
  exact ⟨Nat.le_of_not_lt hlong, Nat.le_of_not_lt hshort, rfl⟩

/-- R132: what an ENCODE that answers has sent is the frame of its payload. -/
theorem exec_encode_sent {t i : Byte} {p w : List Byte} {n : Half} {s0 s1 : State}
    (h : exec (.encode t i p n) s0 = .next s1) (hw : s1.tx = s0.tx ++ w) :
    (p.take n.toNat).length = n.toNat ∧ n.toNat ≤ Config.encMax ∧ w = wireFrame t i (p.take n.toNat) := by
  obtain ⟨bytes, hbytes, rfl⟩ := sendFrame_next _ _ _ s0 s1 h
  obtain ⟨hmax, hlen, rfl⟩ := encodePayload_eq_ok hbytes
  exact ⟨List.length_take_of_le hlen, hmax, (List.append_cancel_left hw).symm⟩

/-- Settles O56: the garbage leaves no trace, and the frame after it is delivered. -/
theorem resynchronisesAfterGarbage : Obligations.ResynchronisesAfterGarbage := by
  intro g t i p n s0 s1 w s hg henc hw hp hcap
  obtain ⟨hlen, hmax, rfl⟩ := exec_encode_sent henc hw
  refine ⟨?garbage, ?frame⟩
  case garbage => simpa using pumpFrames_garbage hg hp []
  case frame =>
    rw [List.map_append, pumpFrames_garbage hg hp, pumpFrames_wireFrame (by omega) hp (by omega)]

/-- Settles O57: the corrupted frame leaves a fresh Packet, on which the next frame is delivered. -/
theorem recoversAfterCorruptedChecksum : Obligations.RecoversAfterCorruptedChecksum := by
  intro t i t2 i2 p p2 n n2 s0 s1 s2 w w2 c c' s henc hw henc2 hw2 hne hp hcap
  obtain ⟨hlen, hmax, hframe⟩ := exec_encode_sent henc hw
  obtain ⟨hlen2, hmax2, rfl⟩ := exec_encode_sent henc2 hw2
  rw [wireFrame_eq_body_append] at hframe
  obtain ⟨rfl, hc⟩ := List.append_inj' hframe rfl
  obtain rfl : c = checksumOf t i (p.take n.toNat) := by simpa using hc
  have hcorrupted := pumpFrames_corrupted hne (by omega) hp
  refine ⟨?corrupted, ?next⟩
  case corrupted => simpa using hcorrupted []
  case next =>
    rw [List.map_append, hcorrupted, pumpFrames_wireFrame (by omega) rfl (by rw [hlen2, atChecksum_cfg]; exact hcap)]

end Sys2Proof.Machine
end

section
/-! The control operation: RESET (43_control.md). -/

namespace Sys2Proof.Machine

/-- R200, R244: RESET's next state, written out. -/
theorem exec_reset (s : State) :
    exec .reset s =
      .next { s with packet := Packet.fresh, buf := [], lastResult := .noFrame, returned := .nothing } := rfl

/-- Settles O39: RESET's next state by its equation, and R37's buffer, in which no read finds a byte. -/
theorem resetMakesPacketFresh : Obligations.ResetMakesPacketFresh := fun s => ⟨exec_reset s, Memory.read_nil⟩

end Sys2Proof.Machine
end

section
/-! How an operation returns (60_exceptions.md R211): no operation faults, and one that goes through has returned a
value of its own kind. Both are said at once of an outcome, and shown once for each operation the instructions share. -/

namespace Sys2Proof.Machine

/-! ## Outcomes without a fault -/

/-- An outcome that is no fault and whose next state, where there is one, has returned a value of the given kind. -/
def ReturnsNormally (kind : Returned → Prop) : Host.Outcome State Fault Refusal → Prop
  | .next s => kind s.returned
  | .fault _ => False
  | .refused _ => True

theorem ReturnsNormally.ne_fault {kind : Returned → Prop} {o : Host.Outcome State Fault Refusal}
    (ho : ReturnsNormally kind o) (f : Fault) : o ≠ .fault f := by
  rintro rfl; exact ho

theorem ReturnsNormally.of_eq_next {kind : Returned → Prop} {o : Host.Outcome State Fault Refusal} {s : State}
    (ho : ReturnsNormally kind o) (h : o = .next s) : kind s.returned := by
  subst h; exact ho

/-! ## The assembler returns a ParseResult -/

@[simp] theorem verdict_returned (s : State) : (verdict s).returned = .parse := by
  obtain ⟨-, -, h⟩ | ⟨-, h⟩ := verdict_cases s <;> rw [h, State.setResult_returned]

@[simp] theorem finish_returned (s : State) : (finish s).returned = .parse := by
  obtain ⟨-, h⟩ | ⟨-, h⟩ := finish_cases s
  · rw [h, verdict_returned]
  · rw [h, State.setResult_returned]

theorem pump_returnsNormally (a : Option Byte) (s : State) : ReturnsNormally (· = .parse) (pump a s) := by
  cases hp : pump a s with
  | next s' =>
    obtain ⟨-, rfl⟩ | ⟨b, st, -, -, rfl⟩ := pump_next a s s' hp
    · exact State.setResult_returned _ _
    · exact finish_returned _
  | fault f => exact absurd hp (pump_not_fault a s f)
  | refused r => trivial

theorem pumpClass_returnsNormally (c : ByteClass) (b : Byte) (s : State) :
    ReturnsNormally (· = .parse) (pumpClass c b s) := by
  unfold pumpClass
  split
  · split
    · exact finish_returned _
    · trivial
  · trivial

/-- A sequence of PUMPs returns what its last one does; an empty one leaves what was returned before. -/
theorem pumpAll_returnsNormally (answers : List (Option Byte)) (s : State)
    (hs : answers = [] → s.returned = .parse) : ReturnsNormally (· = .parse) (pumpAll answers s) := by
  induction answers generalizing s with
  | nil => exact hs rfl
  | cons a rest ih =>
    cases hp : pump a s with
    | next s1 =>
      rw [pumpAll_cons_of_next rest hp]
      exact ih s1 fun _ => (pump_returnsNormally a s).of_eq_next hp
    | fault f => exact absurd hp (pump_not_fault a s f)
    | refused r => simp only [pumpAll, hp]; trivial

theorem parseLoop_returnsNormally (answers : List (Option Byte)) (s : State) :
    ReturnsNormally (· = .parse) (parseLoop answers s) := by
  induction answers generalizing s with
  | nil => exact State.setResult_returned _ _
  | cons a rest ih =>
    cases a with
    | none => exact State.setResult_returned _ _
    | some b =>
      simp only [parseLoop]
      split
      · split
        · exact verdict_returned _
        · exact ih _
      · trivial

/-! ## The encoder returns nothing -/

theorem sendFrame_returnsNormally (t i : Byte) (payload : Except Refusal (List Byte)) (s : State) :
    ReturnsNormally (· = .nothing) (sendFrame t i payload s) := by
  cases payload with
  | ok bytes => exact State.setReturned_returned _ _
  | error r => trivial

/-! ## Every instruction and every step -/

/-- The kind of value an instruction returns (R18, R211; log entry 9). -/
def OwnKind : Instr → Returned → Prop
  | .encode _ _ _ _, v => v = .nothing
  | .encodeAt _ _ _ _, v => v = .nothing
  | .reset, v => v = .nothing
  | .checksum _ _ _, v => ∃ b, v = .byte b
  | .verify _ _ _ _, v => ∃ b, v = .bool b
  | _, v => v = .parse

theorem exec_returnsNormally (i : Instr) (s : State) : ReturnsNormally (OwnKind i) (exec i s) := by
  cases i with
  | pump input => exact pump_returnsNormally _ _
  | parse => exact parseLoop_returnsNormally _ _
  | encode t f p n => exact sendFrame_returnsNormally _ _ _ s
  | encodeAt c0 c1 p n => exact sendFrame_returnsNormally _ _ _ s
  | checksum t f p => exact ⟨checksumOf t f p, rfl⟩
  | verify t f p c => exact ⟨verifyOf t f p c, rfl⟩
  | reset => exact State.setReturned_returned _ _
  | idleMarker => exact pumpClass_returnsNormally .idleMarker _ s
  | idleDiscard b => exact pumpClass_returnsNormally .idleDiscard b s
  | lenHi b => exact pumpClass_returnsNormally .lenHi b s
  | lenLo b => exact pumpClass_returnsNormally .lenLo b s
  | typeByte b => exact pumpClass_returnsNormally .typeByte b s
  | idByte b => exact pumpClass_returnsNormally .idByte b s
  | payloadByte b => exact pumpClass_returnsNormally .payloadByte b s
  | cksumByte b => exact pumpClass_returnsNormally .cksumByte b s
  | frameHead h l t f => exact pumpAll_returnsNormally _ s (by simp)

/-- R211, by the three cases of a step: there is no request, its bits are no instruction, or it is performed. -/
theorem step_ne_fault (s : State) (f : Fault) : step s ≠ .fault f := by
  cases hq : s.requests with
  | nil => simp [step_of_requests_nil hq]
  | cons r rest =>
    cases hd : decode s.packet.stateName r with
    | error e => simp [step_eq_refused_of_undecodable hq hd]
    | ok i =>
      rw [step_eq_exec_of_decode hq hd]
      exact (exec_returnsNormally i _).ne_fault f

/-- Settles O48: a step faults only where its instruction does, and each instruction returns normally. -/
theorem operationsReturnNormally : Obligations.OperationsReturnNormally := by
  refine ⟨step_ne_fault, fun i s s' h => ?_⟩
  have hkind : OwnKind i s'.returned := (exec_returnsNormally i s).of_eq_next h
  cases i <;> exact hkind

end Sys2Proof.Machine
end

section
/-! The caller's view of a delivered frame (R172): while the frame is the last result, its bytes are the buffer's; and
the reset state, in which no view is live (R241). -/

namespace Sys2Proof.Machine
open Sys2Proof.Safety

/-! ## One read of the caller -/

theorem memRead_of_read {i : Nat} {s : State} {b : Byte} (hi : i < s.cfg.cap) (hb : Memory.read s.buf i = some b) :
    memRead i s = .next b := by
  simp only [memRead, hi, hb, if_true]

theorem viewByte_of_noFrame {s : State} (j : Nat) (h : s.lastResult = .noFrame) :
    viewByte j s = .refused .viewDead := by
  simp only [viewByte, h]

theorem viewByte_of_frame {s : State} {t : Byte} {n : Half} (j : Nat) (h : s.lastResult = .frame t n) :
    viewByte j s = if j < n.toNat then memRead (2 + j) s else .refused .viewDead := by
  simp only [viewByte, h]

/-! ## The buffer behind a live view -/

/-- Where the listed indices run on without a gap, the `j`-th cell is what the `j`-th index reads as. -/
theorem Memory.read_of_consecutive {m : Memory} {first : Nat} (h : m.map Prod.fst = List.range' first m.length)
    {j : Nat} (hj : j < m.length) : Memory.read m (first + j) = some m[j].2 := by
  induction m generalizing first j with
  | nil => exact absurd hj (Nat.not_lt_zero j)
  | cons c rest ih =>
    rw [List.map_cons, List.length_cons, List.range'_succ, List.cons.injEq] at h
    obtain ⟨hfirst, hrest⟩ := h
    cases j with
    | zero => simp [Memory.read, hfirst]
    | succ j =>
      have hne : c.1 ≠ first + (j + 1) := by omega
      have hnext : first + (j + 1) = first + 1 + j := by omega
      rw [Memory.read, if_neg hne, hnext, ih hrest (Nat.lt_of_succ_lt_succ hj), List.getElem_cons_succ]

/-- R34 (f), (g): with a frame as the last result the buffer holds exactly the frame's payload, from index 2 on, and
the payload fits the buffer. -/
theorem buf_of_frame {s : State} {t : Byte} {n : Half} (h : PacketInv s) (hres : s.lastResult = .frame t n) :
    s.buf.length = n.toNat ∧ s.buf.map Prod.fst = List.range' 2 s.buf.length ∧
      (0 < n.toNat → n.toNat + 2 ≤ s.cfg.cap) := by
  obtain ⟨-, -, -, -, -, hvalid, hexact, -, hmatch⟩ := h
  simp only [ResultMatches, hres] at hmatch
  obtain ⟨hc, -, rfl⟩ := hmatch
  obtain ⟨hcap, -, hcount⟩ := hvalid hc
  have hlen : bufLen s.cfg.cap s.packet = s.packet.length.toNat := by
    rw [bufLen, if_pos (by omega)]
    omega
  rw [BufferExact, hlen, ← reportedLen_toNat] at hexact
  have hsize : s.buf.length = (reportedLen s.packet.length).toNat := by
    simpa using congrArg List.length hexact
  have hreported := reportedLen_toNat s.packet.length
  exact ⟨hsize, by rw [hsize]; exact hexact, fun _ => by omega⟩

/-- R172: every byte of a live view has a value, and the view holds it at its index. -/
theorem viewByte_of_live {s : State} {t : Byte} {n : Half} (h : PacketInv s) (hres : s.lastResult = .frame t n)
    {j : Nat} (hj : j < n.toNat) : ∃ b, viewByte j s = .next b ∧ (viewBytes s n.toNat)[j]? = some b := by
  obtain ⟨hsize, hindices, hcap⟩ := buf_of_frame h hres
  have hread : ∀ k (hk : k < (s.buf.map Prod.snd).length),
      Memory.read s.buf (2 + k) = some (s.buf.map Prod.snd)[k] := by
    intro k hk
    rw [List.getElem_map]
    exact Memory.read_of_consecutive hindices (by simpa using hk)
  have hview : viewBytes s n.toNat = s.buf.map Prod.snd := by
    simpa [hsize] using viewBytes_eq_of_read hread
  have hj' : j < (s.buf.map Prod.snd).length := by simpa [hsize] using hj
  refine ⟨(s.buf.map Prod.snd)[j], ?value, ?held⟩
  case value =>
    have := hcap (by omega)
    rw [viewByte_of_frame j hres, if_pos hj, memRead_of_read (by omega) (hread j hj')]
  case held => rw [hview, List.getElem?_eq_getElem hj']

/-- Settles O52: a live view reads the buffer the invariant describes; the other reads are refused outright. -/
theorem liveViewIsReadable : Obligations.LiveViewIsReadable := by
  refine ⟨fun s t n hinv hres => ⟨fun j => viewByte_of_live hinv hres, fun j hj => ?pastTheEnd⟩,
    fun s j => viewByte_of_noFrame j⟩
  case pastTheEnd => rw [viewByte_of_frame j hres, if_neg (Nat.not_lt.2 hj)]

/-! ## The reset state -/

/-- Settles O40: the reset values by the definition of the reset state, and RESET by its equation. -/
theorem resetState : Obligations.ResetState := by
  refine ⟨rfl, rfl, Memory.read_nil, rfl, fun j => viewByte_of_noFrame j rfl, fun s t h => ?reset⟩
  case reset =>
    rw [exec_reset] at h
    cases h
    exact ⟨rfl, rfl, rfl, rfl, rfl⟩

end Sys2Proof.Machine
end

section
/-! The frame of PUMP, PARSE and FRAME_HEAD on a Packet that is not complete (R35, R42, R57): the frame goes on, and the
buffer changes only where payload bytes were stored; or the Packet was reset on the way. -/

namespace Sys2Proof.Machine

/-! ## Parameters and queue -/

theorem moves_keep_cfg_and_requests : Moves fun s s' => s'.cfg = s.cfg ∧ s'.requests = s.requests where
  refl _ := ⟨rfl, rfl⟩
  trans := fun _ _ _ ⟨hcfg1, hreq1⟩ ⟨hcfg2, hreq2⟩ => ⟨hcfg2.trans hcfg1, hreq2.trans hreq1⟩
  rx _ _ _ _ := ⟨rfl, rfl⟩
  noFrame _ _ := ⟨rfl, rfl⟩
  returned _ _ := ⟨rfl, rfl⟩
  fresh _ := ⟨rfl, rfl⟩
  byte st b s _ := ⟨received_cfg st b s, received_requests st b s⟩
  tx _ _ := ⟨rfl, rfl⟩

/-! ## The frame goes on -/

/-- Without a reset in between: the counter did not fall, a length that was complete is kept, and the buffer changed
only at indices that payload bytes have in the frame and the logical length now covers (R35, R42). -/
structure Continues (s s' : State) : Prop where
  cfg : s'.cfg = s.cfg
  counter : s.packet.bytesReceived ≤ s'.packet.bytesReceived
  length : 5 ≤ s.packet.bytesReceived → s'.packet.length = s.packet.length
  outside : ∀ a, a < 2 ∨ a < s.packet.bytesReceived - 3 ∨ bufLen s.cfg.cap s'.packet ≤ a →
    Memory.read s'.buf a = Memory.read s.buf a

theorem Continues.of_eq {s s' : State} (hcfg : s'.cfg = s.cfg) (hp : s'.packet = s.packet) (hbuf : s'.buf = s.buf) :
    Continues s s' :=
  ⟨hcfg, by rw [hp], fun _ => by rw [hp], fun _ _ => by rw [hbuf]⟩

/-- R42: the logical length does not fall while the frame goes on. -/
theorem Continues.bufLen_le {s s' : State} (h : Continues s s') (cap : Nat) :
    bufLen cap s.packet ≤ bufLen cap s'.packet := by
  have hcount := h.counter
  unfold bufLen
  split_ifs with h5 h5'
  · rw [h.length h5]
    omega
  · omega
  · exact Nat.zero_le _
  · exact le_rfl

theorem Continues.trans {s u s' : State} (h1 : Continues s u) (h2 : Continues u s') : Continues s s' where
  cfg := h2.cfg.trans h1.cfg
  counter := h1.counter.trans h2.counter
  length h5 := (h2.length (h5.trans h1.counter)).trans (h1.length h5)
  outside a ha := by
    have hcount := h1.counter
    have hlen := h2.bufLen_le s.cfg.cap
    have hlater := h2.outside a
    rw [h1.cfg] at hlater
    rw [hlater (by omega), h1.outside a (by omega)]

/-! ## One received byte -/

/-- R32: once the head is in, a Packet that is not complete is in Payload or Checksum. -/
theorem eq_payload_or_checksum_of_five_le {p : Packet} {st : PacketState} (h : p.stateName = some st)
    (hne : st ≠ .complete) (h5 : 5 ≤ p.bytesReceived) : st = .payload ∨ st = .checksum := by
  obtain ⟨-, ⟨-, hp⟩ | ⟨-, hkey⟩⟩ := stateName_key p st h hne
  · simp [hp] at h5
  · rcases hkey with ⟨-, hn⟩ | ⟨-, hn⟩ | ⟨-, hn⟩ | ⟨-, hn⟩ | ⟨hst, -⟩ | ⟨hst, -⟩
    iterate 4 · omega
    · exact .inl hst
    · exact .inr hst

/-- R24: a length that is complete is changed by a reset alone. -/
theorem received_length {st : PacketState} (b : Byte) {s : State} (hst : s.packet.stateName = some st)
    (hne : st ≠ .complete) (h5 : 5 ≤ s.packet.bytesReceived) :
    (received st b s).packet.length = s.packet.length ∨ st = .checksum ∧ received st b s = s.discarded := by
  obtain rfl | rfl := eq_payload_or_checksum_of_five_le hst hne h5
  · exact .inl rfl
  · rw [received]
    split
    · exact .inl rfl
    · exact .inr ⟨rfl, rfl⟩

theorem five_le_bytesReceived_of_checksum {p : Packet} (h : p.stateName = some .checksum) : 5 ≤ p.bytesReceived := by
  obtain ⟨-, hkey⟩ := stateName_key p .checksum h (by simp)
  have hchecksum : p.started = true ∧ 5 ≤ p.bytesReceived ∧ p.length.toNat ≤ p.bytesReceived - 3 := by
    simpa using hkey
  exact hchecksum.2.1

/-- R165: a payload byte is stored below the logical length that it makes. -/
theorem read_received_payload_outside (b : Byte) {s : State} (hst : s.packet.stateName = some .payload) {a : Nat}
    (ha : a < 2 ∨ a < s.packet.bytesReceived - 3 ∨ bufLen s.cfg.cap (received .payload b s).packet ≤ a) :
    Memory.read (received .payload b s).buf a = Memory.read s.buf a := by
  obtain ⟨-, hkey⟩ := stateName_key _ .payload hst (by simp)
  have hpayload : s.packet.started = true ∧ 5 ≤ s.packet.bytesReceived ∧
      s.packet.bytesReceived - 3 < s.packet.length.toNat := by simpa using hkey
  obtain ⟨-, h5, hlt⟩ := hpayload
  have hlen : bufLen s.cfg.cap (received .payload b s).packet =
      min s.cfg.cap (min s.packet.length.toNat (s.packet.bytesReceived + 1 - 3)) := if_pos (by simp [received]; omega)
  exact read_received_payload b s a (by omega)

/-- R167: a byte on a Packet that is not complete lowers the counter by a reset alone. -/
theorem le_bytesReceived_received {st : PacketState} (b : Byte) {s : State} (hst : s.packet.stateName = some st)
    (hne : st ≠ .complete) :
    s.packet.bytesReceived ≤ (received st b s).packet.bytesReceived ∨
      st = .checksum ∧ received st b s = s.discarded := by
  by_cases hi : st = .idle
  · subst hi
    simp [(stateName_eq_idle _).1 hst]
  by_cases hk : st = .checksum
  · subst hk
    obtain ⟨-, -, hcount⟩ | hreset := received_checksum_cases b s
    · exact .inl (by omega)
    · exact .inr ⟨rfl, hreset⟩
  · obtain ⟨-, hcount, -⟩ := received_inProgress_packet st b s hst hi hk hne
    exact .inl (by omega)

/-- R35, R165: a byte on a Packet that is not complete changes the buffer below the logical length, or resets it. -/
theorem read_received_outside {st : PacketState} (b : Byte) {s : State} (hst : s.packet.stateName = some st)
    (hne : st ≠ .complete) {a : Nat}
    (ha : a < 2 ∨ a < s.packet.bytesReceived - 3 ∨ bufLen s.cfg.cap (received st b s).packet ≤ a) :
    Memory.read (received st b s).buf a = Memory.read s.buf a ∨
      st = .checksum ∧ received st b s = s.discarded := by
  by_cases hp : st = .payload
  · subst hp
    exact .inl (read_received_payload_outside b hst ha)
  by_cases hk : st = .checksum
  · subst hk
    obtain ⟨hbuf, -⟩ | hreset := received_checksum_cases b s
    · exact .inl (by rw [hbuf])
    · exact .inr ⟨rfl, hreset⟩
  · exact .inl (by rw [received_buf_unchanged st b s hp hk hne])

/-- A byte on a Packet that is not complete goes on with the frame, or is a checksum byte that discards it. -/
theorem received_continues_or_discarded {st : PacketState} (b : Byte) {s : State}
    (hst : s.packet.stateName = some st) (hne : st ≠ .complete) :
    Continues s (received st b s) ∨ st = .checksum ∧ received st b s = s.discarded := by
  refine or_iff_not_imp_right.2 fun hkept => ⟨received_cfg st b s, ?counter, fun h5 => ?length, fun a ha => ?outside⟩
  case counter => exact (le_bytesReceived_received b hst hne).resolve_right hkept
  case length => exact (received_length b hst hne h5).resolve_right hkept
  case outside => exact (read_received_outside b hst hne ha).resolve_right hkept

/-! ## A run of PUMPs -/

/-- A complete Packet has counted its marker, its head and its checksum byte. -/
def CompleteCounts (s : State) : Prop := s.packet.checksumReceived = true → 6 ≤ s.packet.bytesReceived

theorem completeCounts_of_not_complete {s : State} (h : s.packet.checksumReceived = false) : CompleteCounts s :=
  fun hc => by rw [h] at hc; cases hc

/-- R151: after the byte that supersedes a complete Packet at most the marker is counted. -/
theorem received_complete_packet (b : Byte) (s : State) :
    (received .complete b s).packet.checksumReceived = false ∧ (received .complete b s).packet.bytesReceived ≤ 1 := by
  simp only [received]
  split <;> simp

theorem completeCounts_received (st : PacketState) (b : Byte) (s : State) (hst : s.packet.stateName = some st) :
    CompleteCounts (received st b s) := by
  by_cases hne : st = .complete
  · subst hne
    exact completeCounts_of_not_complete (received_complete_packet b s).1
  intro hc
  obtain ⟨⟨-, hcount⟩ | hfresh, -, -, hlast⟩ := received_counter_and_flags st b s hst hne
  · obtain rfl := hlast hc
    have := five_le_bytesReceived_of_checksum hst
    omega
  · rw [hfresh] at hc
    cases hc

theorem moves_keep_completeCounts : Moves fun s s' => CompleteCounts s → CompleteCounts s' where
  refl _ := id
  trans _ _ _ h1 h2 := h2 ∘ h1
  rx _ _ _ _ := id
  noFrame _ _ := id
  returned _ _ := id
  fresh _ _ := completeCounts_of_not_complete rfl
  byte st b s hst _ := completeCounts_received st b s hst
  tx _ _ := id

/-- The Packet was reset by one of the last `k` PUMPs and no payload byte was stored since. A reset takes a Packet that
has counted five bytes, or six if it was complete, which is what the bound on the counter says. -/
structure ResetWithin (k : Nat) (s s' : State) : Prop where
  counter : s'.packet.bytesReceived + 6 ≤ s.packet.bytesReceived + k
  recent : s'.packet.bytesReceived ≤ k
  empty : ∀ a, Memory.read s'.buf a = none

theorem ResetWithin.counter_lt {k : Nat} {s s' : State} (h : ResetWithin k s s') (hk : k ≤ 5) :
    s'.packet.bytesReceived < s.packet.bytesReceived := by
  have := h.counter
  omega

theorem supersede_continues_or_reset {s : State} (hs : CompleteCounts s) :
    Continues s ((supersede s).setResult .noFrame) ∨ ResetWithin 1 s ((supersede s).setResult .noFrame) := by
  by_cases hc : s.packet.checksumReceived = true
  · have h6 := hs hc
    rw [supersede_of_complete s hc]
    exact .inr ⟨by simp; omega, Nat.zero_le 1, Memory.read_nil⟩
  · rw [supersede_of_not_complete s (by simpa using hc)]
    exact .inl (.of_eq rfl rfl rfl)

theorem received_continues_or_reset {st : PacketState} (b : Byte) {s : State} (hs : CompleteCounts s)
    (hst : s.packet.stateName = some st) :
    Continues s (received st b s) ∨ ResetWithin 1 s (received st b s) := by
  by_cases hne : st = .complete
  · subst hne
    have h6 := hs ((stateName_eq_complete _).1 hst)
    obtain ⟨-, hcount⟩ := received_complete_packet b s
    exact .inr ⟨by omega, hcount, fun a => by rw [received_complete_buf, Memory.read_nil]⟩
  refine (received_continues_or_discarded b hst hne).imp_right ?_
  rintro ⟨rfl, hreset⟩
  have h5 := five_le_bytesReceived_of_checksum hst
  rw [hreset]
  exact ⟨by simp; omega, Nat.zero_le 1, Memory.read_nil⟩

theorem pump_continues_or_reset {a : Option Byte} {s s' : State} (hs : CompleteCounts s) (h : pump a s = .next s') :
    Continues s s' ∨ ResetWithin 1 s s' := by
  obtain ⟨-, rfl⟩ | ⟨b, st, -, hst, rfl⟩ := pump_next_received a s s' h
  · exact supersede_continues_or_reset hs
  · exact received_continues_or_reset b hs hst

/-- R167: a PUMP counts at most one byte. -/
theorem pump_bytesReceived_le {a : Option Byte} {s s' : State} (h : pump a s = .next s') :
    s'.packet.bytesReceived ≤ s.packet.bytesReceived + 1 := by
  obtain ⟨-, rfl⟩ | ⟨b, st, -, hst, rfl⟩ := pump_next_received a s s' h
  · unfold supersede
    split <;> simp
  by_cases hne : st = .complete
  · subst hne
    have := (received_complete_packet b s).2
    omega
  · obtain ⟨⟨-, hcount⟩ | hfresh, -⟩ := received_counter_and_flags st b s hst hne
    · exact hcount.le
    · simp [hfresh]

theorem pumpAll_bytesReceived_le {answers : List (Option Byte)} {s s' : State} (h : pumpAll answers s = .next s') :
    s'.packet.bytesReceived ≤ s.packet.bytesReceived + answers.length := by
  induction answers generalizing s with
  | nil => cases h; simp
  | cons a rest ih =>
    cases hp : pump a s with
    | next u =>
      rw [pumpAll_cons_of_next rest hp] at h
      have h1 := pump_bytesReceived_le hp
      have h2 := ih h
      rw [List.length_cons]
      omega
    | fault f => simp [pumpAll, hp] at h
    | refused r => simp [pumpAll, hp] at h

/-- A reset by a later PUMP. -/
theorem ResetWithin.of_later {k : Nat} {s u s' : State} (hu : u.packet.bytesReceived ≤ s.packet.bytesReceived + 1)
    (h : ResetWithin k u s') : ResetWithin (k + 1) s s' :=
  ⟨by have := h.counter; omega, h.recent.trans (Nat.le_succ k), h.empty⟩

/-- At most four bytes on, a Packet that was reset has no payload byte yet, so nothing is stored. -/
theorem ResetWithin.continues {k : Nat} {s u s' : State} (h : ResetWithin 1 s u) (hnext : Continues u s')
    (hcount : s'.packet.bytesReceived ≤ u.packet.bytesReceived + k) (hk : k ≤ 4) : ResetWithin (k + 1) s s' := by
  obtain ⟨hcounter, hrecent, hempty⟩ := h
  refine ⟨by omega, by omega, fun a => ?empty⟩
  case empty =>
    have hlen : bufLen u.cfg.cap s'.packet ≤ 2 := by
      unfold bufLen
      split_ifs <;> omega
    rw [hnext.outside a (by omega), hempty a]

/-- Five PUMPs go on with the frame, or the last reset is so near that the buffer is empty since. -/
theorem pumpAll_continues_or_reset {answers : List (Option Byte)} {s s' : State} (hlen : answers.length ≤ 5)
    (hs : CompleteCounts s) (h : pumpAll answers s = .next s') :
    Continues s s' ∨ ResetWithin answers.length s s' := by
  induction answers generalizing s with
  | nil => cases h; exact .inl (.of_eq rfl rfl rfl)
  | cons a rest ih =>
    cases hp : pump a s with
    | next u =>
      rw [pumpAll_cons_of_next rest hp] at h
      rw [List.length_cons] at hlen ⊢
      obtain hlater | hlater := ih (by omega) (moves_keep_completeCounts.pump a s u hp hs) h
      · refine (pump_continues_or_reset hs hp).imp (fun hfirst => hfirst.trans hlater) fun hfirst => ?_
        exact hfirst.continues hlater (pumpAll_bytesReceived_le h) (by omega)
      · exact .inr (hlater.of_later (pump_bytesReceived_le hp))
    | fault f => simp [pumpAll, hp] at h
    | refused r => simp [pumpAll, hp] at h

/-! ## PARSE -/

/-- R180: PARSE's loop receives the next byte, and goes on unless it was the checksum byte. -/
theorem parseLoop_cons_received {st : PacketState} {s : State} (b : Byte) (rest : List (Option Byte))
    (hst : s.packet.stateName = some st) (hc : s.packet.checksumReceived = false) :
    parseLoop (some b :: rest) s =
      if st = .checksum then .next (received st b (s.setRx rest))
      else parseLoop rest (received st b (s.setRx rest)) := by
  have hlast : (byteStep (classify st b) b (s.setRx rest)).packet.checksumReceived = decide (st = .checksum) := by
    simp [byteStep_checksumReceived, classify_eq_cksumByte, hc]
  rw [← finish_received st b (s.setRx rest) hst (ne_complete_of_stateName hst hc)]
  simp only [parseLoop, hst, finish, hlast, decide_eq_true_eq]
  split_ifs
  · rfl
  · rw [parseLoop_setResult]

/-- R180 (decision D14): PARSE's loop goes on with one frame, or ends where that frame is discarded. -/
theorem parseLoop_continues_or_discarded {answers : List (Option Byte)} {s s' : State}
    (hc : s.packet.checksumReceived = false) (h : parseLoop answers s = .next s') :
    Continues s s' ∨ s'.packet = Packet.fresh ∧ s'.buf = [] := by
  induction answers generalizing s with
  | nil => cases h; exact .inl (.of_eq rfl rfl rfl)
  | cons a rest ih =>
    cases a with
    | none => cases h; exact .inl (.of_eq rfl rfl rfl)
    | some b =>
      cases hst : s.packet.stateName with
      | none => simp [parseLoop, hst] at h
      | some st =>
        have hne := ne_complete_of_stateName hst hc
        have hread : Continues s (s.setRx rest) := .of_eq rfl rfl rfl
        have hbyte := received_continues_or_discarded b (s := s.setRx rest) hst hne
        rw [parseLoop_cons_received b rest hst hc] at h
        split_ifs at h with hk
        · cases h
          refine hbyte.imp hread.trans ?_
          rintro ⟨-, hreset⟩
          rw [hreset]
          exact ⟨rfl, rfl⟩
        · obtain ⟨-, -, -, hlast⟩ := received_counter_and_flags st b (s.setRx rest) hst hne
          have hfirst := hbyte.resolve_right fun hreset => hk hreset.1
          refine (ih (by simpa using mt hlast hk) h).imp_left fun hlater => ?_
          exact hread.trans (hfirst.trans hlater)

/-! ## The instructions -/

/-- R150: PUMP's operand comes from the caller or from the RX stream, and nothing else is touched. -/
theorem pumpOperand_eq_setRx (input : PumpInput) (s : State) :
    ∃ answers, (pumpOperand input s).2 = s.setRx answers := by
  cases input with
  | given a => exact ⟨s.rx, rfl⟩
  | read =>
    cases hrx : s.rx with
    | nil => exact ⟨s.rx, by rw [pumpOperand, rxRead_of_rx_nil hrx]; rfl⟩
    | cons a rest => exact ⟨rest, by rw [pumpOperand, rxRead_of_rx_cons hrx]⟩

/-- All that PUMP, PARSE and FRAME_HEAD can do to the buffer of a Packet that is not complete. -/
theorem assembler_continues_or_reset {i : Instr} {s s' : State} (hc : s.packet.checksumReceived = false)
    (hi : (∃ x, i = .pump x) ∨ i = .parse ∨ ∃ h l t f, i = .frameHead h l t f) (h : exec i s = .next s') :
    Continues s s' ∨ (∀ a, Memory.read s'.buf a = none) ∧
      (s'.packet.bytesReceived < s.packet.bytesReceived ∨ i = .parse ∧ s'.packet = Packet.fresh) := by
  rcases hi with ⟨input, rfl⟩ | rfl | ⟨hi, lo, t, f, rfl⟩
  · obtain ⟨answers, hoperand⟩ := pumpOperand_eq_setRx input s
    have hread : Continues s (s.setRx answers) := .of_eq rfl rfl rfl
    have hs : CompleteCounts (s.setRx answers) := completeCounts_of_not_complete hc
    have hpump : pump (pumpOperand input s).1 (s.setRx answers) = .next s' := hoperand ▸ h
    exact (pump_continues_or_reset hs hpump).imp hread.trans fun hreset =>
      ⟨hreset.empty, .inl (hreset.counter_lt (by decide))⟩
  · rw [exec, execParse, supersede_of_not_complete s hc] at h
    refine (parseLoop_continues_or_discarded hc h).imp_right fun ⟨hfresh, hbuf⟩ => ⟨fun a => ?_, .inr ⟨rfl, hfresh⟩⟩
    rw [hbuf, Memory.read_nil]
  · exact (pumpAll_continues_or_reset le_rfl (completeCounts_of_not_complete hc) h).imp_right fun hreset =>
      ⟨hreset.empty, .inl (hreset.counter_lt le_rfl)⟩

/-- R57, R244: the streams across PUMP, PARSE, RESET and FRAME_HEAD. -/
theorem assembler_streams {i : Instr} {s s' : State}
    (hi : (∃ x, i = .pump x) ∨ i = .parse ∨ i = .reset ∨ ∃ h l t f, i = .frameHead h l t f)
    (h : exec i s = .next s') :
    s'.tx = s.tx ∧ (i ≠ .parse → i ≠ .pump .read → s'.rx = s.rx) ∧ (i = .pump .read → s'.rx = s.rx.tail) := by
  rcases hi with ⟨input, rfl⟩ | rfl | rfl | ⟨hi, lo, t, f, rfl⟩
  · cases input with
    | read =>
      obtain ⟨htx, hrx⟩ := execPump_read_streams s s' h
      exact ⟨htx, fun _ hne => absurd rfl hne, fun _ => hrx⟩
    | given a =>
      obtain ⟨htx, hrx⟩ := pump_keepsStreams a s s' h
      exact ⟨htx, fun _ _ => hrx, nofun⟩
  · exact ⟨(execParse_streams s s' h).1, fun hne => absurd rfl hne, nofun⟩
  · cases h
    exact ⟨rfl, fun _ _ => rfl, nofun⟩
  · obtain ⟨htx, hrx⟩ := pumpAll_keepsStreams _ s s' h
    exact ⟨htx, fun _ _ => hrx, nofun⟩

/-- Settles O34: the moves keep parameters and queue, the streams are one case per instruction, and the buffer is that
of a frame that went on or of a Packet that was reset. -/
theorem assemblerFrame : Obligations.AssemblerFrame := by
  intro i s s' hi h
  obtain ⟨hcfg, hrequests⟩ := moves_keep_cfg_and_requests.exec i s s' h
  obtain ⟨htx, hrx, htail⟩ := assembler_streams hi h
  refine ⟨hcfg, htx, hrequests, hrx, htail, ?reset, fun hne hc => ?assembler⟩
  case reset =>
    rintro rfl
    cases h
    exact Memory.read_nil
  case assembler =>
    obtain hnext | ⟨hempty, hreset⟩ := assembler_continues_or_reset hc
      (hi.imp_right (Or.imp_right (Or.resolve_left · hne))) h
    · exact ⟨fun _ _ => hnext.outside, fun hlower => absurd hnext.counter (Nat.not_le.2 hlower)⟩
    · refine ⟨fun hkept hle => ?_, fun _ => hempty⟩
      obtain hlower | ⟨hparse, hfresh⟩ := hreset
      · exact absurd hle (Nat.not_le.2 hlower)
      · exact absurd hfresh (hkept hparse)

end Sys2Proof.Machine
end

section
/-! The invariant of the reachable states (10_state.md section 5, R34): it holds of a fresh Packet, and a received byte
keeps it, by the named state that it meets. -/

namespace Sys2Proof.Machine
open Sys2Proof.Safety

/-! ## Outside a frame and in the head -/

/-- R42: the head of a frame takes no place in the buffer behind the two indices that are never written. -/
theorem bufLen_sub_two_of_head (cap : Nat) {p : Packet} (hn : p.bytesReceived ≤ 5) : bufLen cap p - 2 = 0 := by
  unfold bufLen
  split_ifs <;> omega

theorem bufferExact_of_head {s : State} (hbuf : s.buf = []) (hn : s.packet.bytesReceived ≤ 5) : BufferExact s := by
  rw [BufferExact, bufLen_sub_two_of_head _ hn, hbuf]
  rfl

theorem buf_eq_nil_of_head {s : State} (h : BufferExact s) (hn : s.packet.bytesReceived ≤ 5) : s.buf = [] := by
  rw [BufferExact, bufLen_sub_two_of_head _ hn] at h
  exact List.map_eq_nil_iff.1 h

theorem packetInv_of_fresh {s : State} (hok : s.cfg.Ok) (hp : s.packet = Packet.fresh) (hbuf : s.buf = [])
    (hres : s.lastResult = .noFrame) : PacketInv s := by
  have hbuffer : BufferExact s := bufferExact_of_head hbuf (by simp [hp])
  exact ⟨hok, by simp [hp], by simp [hp], by simp [LengthPartial, hp], by simp [hp], by simp [hp], hbuffer,
    by simp [SumExact, hp], by simp [ResultMatches, hres, hp]⟩

/-- Settles O41: at reset the Packet is fresh and the parameters are in range. -/
theorem invariantAtReset : Obligations.InvariantAtReset :=
  packetInv_of_fresh (by decide) rfl rfl rfl

/-- While the head comes in, the clauses of R34 that say something are those on the length and the sum. -/
theorem packetInv_of_head {s : State} (hok : s.cfg.Ok) (hbuf : s.buf = []) (hres : s.lastResult = .noFrame)
    (hs : s.packet.started = true) (hc : s.packet.checksumReceived = false) (h1 : 1 ≤ s.packet.bytesReceived)
    (h5 : s.packet.bytesReceived ≤ 5) (hlength : LengthPartial s.packet)
    (hsum3 : s.packet.bytesReceived ≤ 3 → s.packet.runSum = 0)
    (hsum4 : s.packet.bytesReceived = 4 → s.packet.runSum = s.packet.frameType)
    (hsum5 : s.packet.bytesReceived = 5 → s.packet.runSum = s.packet.frameType + s.packet.frameId) :
    PacketInv s := by
  refine ⟨hok, by simp [hs], fun _ => h1, hlength, fun _ _ _ => by omega, by simp [hc],
    bufferExact_of_head hbuf h5, ⟨hsum3, hsum4, fun hge _ => ?sum⟩, by simp [ResultMatches, hres, hc]⟩
  case sum =>
    rw [hsum5 (by omega), hbuf, hc]
    simp [sumBytes]

/-- R158: the Packet that has counted its marker alone. -/
theorem packetInv_of_marker {s : State} (hok : s.cfg.Ok) (hbuf : s.buf = []) (hres : s.lastResult = .noFrame)
    (hp : s.packet = { Packet.fresh with started := true, bytesReceived := 1 }) : PacketInv s := by
  apply packetInv_of_head hok hbuf hres <;> simp [hp, LengthPartial]

theorem packetInv_received_idle (b : Byte) {s : State} (hst : s.packet.stateName = some .idle) (h : PacketInv s) :
    PacketInv (received .idle b s) := by
  have hfresh := (stateName_eq_idle _).1 hst
  obtain ⟨hok, -, -, -, -, -, hbuffer, -, -⟩ := h
  have hbuf : (received .idle b s).buf = [] :=
    (received_buf_unchanged .idle b s (by simp) (by simp) (by simp)).trans
      (buf_eq_nil_of_head hbuffer (by simp [hfresh]))
  have hres := received_lastResult (st := .idle) (by simp) b s
  have hok' : (received .idle b s).cfg.Ok := (received_cfg .idle b s).symm ▸ hok
  obtain ⟨-, hp⟩ | hp := received_idle_packet b s
  · exact packetInv_of_marker hok' hbuf hres hp
  · exact packetInv_of_fresh hok' (hp.trans hfresh) hbuf hres

theorem packetInv_received_complete (b : Byte) {s : State} (hok : s.cfg.Ok) :
    PacketInv (received .complete b s) := by
  rw [received]
  split
  · exact packetInv_of_marker hok rfl rfl rfl
  · exact packetInv_of_fresh hok rfl rfl rfl

/-- R160: the high length byte leaves the low half 0. -/
theorem loByte_shiftLeft_eight (b : Byte) : loByte (b.setWidth 16 <<< 8) = 0 := by
  apply BitVec.eq_of_toNat_eq
  rw [loByte_toNat, shiftLeft_eight_toNat]
  simp

/-- R160 to R163: the four bytes behind the marker. -/
theorem packetInv_received_head {st : PacketState} (b : Byte) {s : State} (hst : s.packet.stateName = some st)
    (hhead : st = .headerLengthHigh ∨ st = .headerLengthLow ∨ st = .headerType ∨ st = .headerId) (h : PacketInv s) :
    PacketInv (received st b s) := by
  obtain ⟨hok, -, -, -, -, -, hbuffer, ⟨hsum3, hsum4, -⟩, -⟩ := h
  obtain ⟨hc, hkey⟩ := stateName_key _ st hst (by rintro rfl; simp at hhead)
  have hbuf : s.packet.bytesReceived ≤ 5 → s.buf = [] := buf_eq_nil_of_head hbuffer
  rcases hhead with rfl | rfl | rfl | rfl
  · obtain ⟨hs, hn⟩ : s.packet.started = true ∧ s.packet.bytesReceived = 1 := by simpa using hkey
    apply packetInv_of_head (s := received .headerLengthHigh b s) hok (hbuf (by omega)) rfl hs hc <;>
      simp [received, LengthPartial, loByte_shiftLeft_eight, hsum3, hn]
  · obtain ⟨hs, hn⟩ : s.packet.started = true ∧ s.packet.bytesReceived = 2 := by simpa using hkey
    apply packetInv_of_head (s := received .headerLengthLow b s) hok (hbuf (by omega)) rfl hs hc <;>
      simp [received, LengthPartial, hsum3, hn]
  · obtain ⟨hs, hn⟩ : s.packet.started = true ∧ s.packet.bytesReceived = 3 := by simpa using hkey
    apply packetInv_of_head (s := received .headerType b s) hok (hbuf (by omega)) rfl hs hc <;>
      simp [received, LengthPartial, hsum3, hn]
  · obtain ⟨hs, hn⟩ : s.packet.started = true ∧ s.packet.bytesReceived = 4 := by simpa using hkey
    apply packetInv_of_head (s := received .headerId b s) hok (hbuf (by omega)) rfl hs hc <;>
      simp [received, LengthPartial, hsum4, hn]

/-! ## Payload bytes -/

/-- Where the listed indices run on without a gap, a write behind the last one appends a cell. -/
theorem Memory.write_of_consecutive {m : Memory} {first : Nat} (h : m.map Prod.fst = List.range' first m.length)
    (b : Byte) : Memory.write m (first + m.length) b = m ++ [(first + m.length, b)] := by
  induction m generalizing first with
  | nil => rfl
  | cons c rest ih =>
    rw [List.map_cons, List.length_cons, List.range'_succ, List.cons.injEq] at h
    obtain ⟨hfirst, hrest⟩ := h
    have hnext : first + (rest.length + 1) = first + 1 + rest.length := by omega
    rw [List.length_cons, hnext, Memory.write, if_neg (by omega), if_neg (by omega), ih hrest, List.cons_append]

/-- R32: the Payload state, read off the counter. -/
theorem payload_key {p : Packet} (h : p.stateName = some .payload) :
    p.checksumReceived = false ∧ p.started = true ∧ 5 ≤ p.bytesReceived ∧ p.bytesReceived - 3 < p.length.toNat := by
  simpa using stateName_key p .payload h (by simp)

/-- R32: the Checksum state, read off the counter. -/
theorem checksum_key {p : Packet} (h : p.stateName = some .checksum) :
    p.checksumReceived = false ∧ p.started = true ∧ 5 ≤ p.bytesReceived ∧ p.length.toNat ≤ p.bytesReceived - 3 := by
  simpa using stateName_key p .checksum h (by simp)

/-- R165: a payload byte that fits is the next one of the buffer. -/
theorem received_payload_buf_append (b : Byte) {s : State} (hst : s.packet.stateName = some .payload)
    (hbuffer : BufferExact s) (hcap : s.packet.bytesReceived - 3 < s.cfg.cap) :
    (received .payload b s).buf = s.buf ++ [(s.packet.bytesReceived - 3, b)] := by
  obtain ⟨-, -, h5, hlt⟩ := payload_key hst
  have hlen : bufLen s.cfg.cap s.packet - 2 = s.packet.bytesReceived - 5 := by
    rw [bufLen, if_pos h5]
    omega
  rw [BufferExact, hlen] at hbuffer
  have hsize : s.buf.length = s.packet.bytesReceived - 5 := by simpa using congrArg List.length hbuffer
  have hindex : s.packet.bytesReceived - 3 = 2 + s.buf.length := by omega
  rw [received_payload_buf, if_pos hcap, hindex, Memory.write_of_consecutive (by rw [hsize, hbuffer])]

theorem bufferExact_received_payload (b : Byte) {s : State} (hst : s.packet.stateName = some .payload)
    (h : BufferExact s) : BufferExact (received .payload b s) := by
  obtain ⟨-, -, h5, hlt⟩ := payload_key hst
  have hlen : bufLen s.cfg.cap (received .payload b s).packet =
      min s.cfg.cap (min s.packet.length.toNat (s.packet.bytesReceived + 1 - 3)) := if_pos (by simp [received]; omega)
  rw [BufferExact, received_cfg, hlen]
  by_cases hcap : s.packet.bytesReceived - 3 < s.cfg.cap
  · have hbefore : bufLen s.cfg.cap s.packet - 2 = s.packet.bytesReceived - 5 := by
      rw [bufLen, if_pos h5]
      omega
    have hafter : min s.cfg.cap (min s.packet.length.toNat (s.packet.bytesReceived + 1 - 3)) - 2 =
        s.packet.bytesReceived - 5 + 1 := by omega
    have hindex : s.packet.bytesReceived - 3 = 2 + (s.packet.bytesReceived - 5) := by omega
    rw [received_payload_buf_append b hst h hcap, List.map_append, h, hbefore, hafter, List.range'_1_concat, hindex]
    rfl
  · rw [received_payload_buf, if_neg hcap, h, bufLen, if_pos h5]
    congr 1
    omega

theorem packetInv_received_payload (b : Byte) {s : State} (hst : s.packet.stateName = some .payload)
    (h : PacketInv s) : PacketInv (received .payload b s) := by
  obtain ⟨hc, hs, h5, hlt⟩ := payload_key hst
  obtain ⟨hok, -, -, -, -, -, hbuffer, ⟨-, -, hsum⟩, -⟩ := h
  have hc' : (received .payload b s).packet.checksumReceived = false := hc
  have hcount : (received .payload b s).packet.bytesReceived = s.packet.bytesReceived + 1 := rfl
  have hlength : (received .payload b s).packet.length = s.packet.length := rfl
  refine ⟨hok, ?idle, fun _ => by omega, ⟨by omega, by omega⟩, ?position, ?complete,
    bufferExact_received_payload b hst hbuffer, ⟨by omega, by omega, fun _ hcap => ?sum⟩, hc⟩
  case idle => simp [received, hs]
  case position =>
    intro _ _ _
    rw [hcount, hlength]
    omega
  case complete => simp [received, hc]
  case sum =>
    rw [hlength, received_cfg] at hcap
    rw [received_payload_buf_append b hst hbuffer (by omega)]
    simp [received, hsum h5 hcap, hc, sumBytes, BitVec.add_assoc]

/-! ## The checksum byte -/

theorem packetInv_received_checksum (b : Byte) {s : State} (hst : s.packet.stateName = some .checksum)
    (h : PacketInv s) : PacketInv (received .checksum b s) := by
  obtain ⟨hc, hs, h5, hle⟩ := checksum_key hst
  obtain ⟨hok, -, -, -, hposition, -, hbuffer, ⟨-, -, hsum⟩, -⟩ := h
  have hbound := hposition hs hc (by omega)
  rw [received]
  split
  next hvalid =>
    obtain ⟨hcap, hff⟩ := hvalid
    refine ⟨hok, by simp [hs], fun _ => Nat.le_add_left .., ⟨by simp; omega, by simp; omega⟩,
      fun _ hnot => absurd hnot (by simp), fun _ => ⟨hcap, rfl, ?count⟩, ?buffer,
      ⟨by simp; omega, by simp; omega, fun _ _ => ?sum⟩, ⟨rfl, rfl, rfl⟩⟩
    case count => simp; omega
    case buffer =>
      rw [BufferExact] at hbuffer ⊢
      rw [hbuffer, bufLen, bufLen, if_pos h5, if_pos (by simp; omega)]
      congr 2
      simp
      omega
    case sum => simp [← hff, hsum h5 hcap, hc]
  next => exact packetInv_of_fresh hok rfl rfl rfl

/-! ## Every step -/

theorem packetInv_received (st : PacketState) (b : Byte) (s : State) (hst : s.packet.stateName = some st)
    (h : PacketInv s) : PacketInv (received st b s) := by
  cases st
  case idle => exact packetInv_received_idle b hst h
  case complete =>
    obtain ⟨hok, -⟩ := h
    exact packetInv_received_complete b hok
  case payload => exact packetInv_received_payload b hst h
  case checksum => exact packetInv_received_checksum b hst h
  all_goals exact packetInv_received_head b hst (by simp) h

theorem packetInv_setResult_noFrame {s : State} (hc : s.packet.checksumReceived = false) (h : PacketInv s) :
    PacketInv (s.setResult .noFrame) := by
  obtain ⟨hok, hidle, hstarted, hlength, hposition, hvalid, hbuffer, hsum, -⟩ := h
  exact ⟨hok, hidle, hstarted, hlength, hposition, hvalid, hbuffer, hsum, hc⟩

theorem moves_keep_packetInv : Moves fun s s' => PacketInv s → PacketInv s' where
  refl _ := id
  trans _ _ _ h1 h2 := h2 ∘ h1
  rx _ _ _ _ := id
  noFrame _ := packetInv_setResult_noFrame
  returned _ _ := id
  fresh := fun _ ⟨hok, _⟩ => packetInv_of_fresh hok rfl rfl rfl
  byte := packetInv_received
  tx _ _ := id

/-- Settles O42: every move keeps the invariant; the moves that touch the Packet are the received bytes, by the named
state each meets, and the reset. -/
theorem invariantKept : Obligations.InvariantKept := by
  intro s s' hs h
  exact moves_keep_packetInv.step (fun _ _ => id) s s' h hs

end Sys2Proof.Machine
end

section
/-! The sums of the Checksum Generator: what VERIFY accepts, and what a change or a reordering of bytes does to the sum
(R113, R115, R116). -/

namespace Sys2Proof.Machine
open Sys2Proof.Safety

/-! ## What VERIFY accepts -/

theorem frameSum_eq (t i : Byte) (p : List Byte) : frameSum t i p = t + i + sumBytes p := by
  rw [frameSum, sumBytes, sumBytes, BitVec.add_assoc]

/-- R113: VERIFY accepts CHECKSUM's byte and no other. -/
theorem verifyOf_eq_decide_checksumOf (t i : Byte) (p : List Byte) (d : Byte) :
    verifyOf t i p d = decide (d = checksumOf t i p) := by
  rw [verifyOf, checksumOf, Bool.eq_iff_iff, beq_iff_eq, decide_eq_true_iff, BitVec.eq_sub_iff_add_eq, BitVec.add_comm]

/-- R113: the checksum byte of another sum is not accepted. -/
theorem verifyOf_checksumOf_of_ne {t i t' i' : Byte} {p p' : List Byte} (h : frameSum t' i' p' ≠ frameSum t i p) :
    verifyOf t' i' p' (checksumOf t i p) = false := by
  rw [verifyOf_eq_decide_checksumOf, decide_eq_false_iff_not, checksumOf, checksumOf]
  exact fun heq => h ((BitVec.sub_right_inj _).1 heq).symm

/-- A change of one byte changes the sum. -/
theorem sumBytes_set_ne {p : List Byte} {k : Nat} {b b' : Byte} (hk : p[k]? = some b) (hne : b' ≠ b) :
    sumBytes (p.set k b') ≠ sumBytes p := by
  induction p generalizing k with
  | nil => simp at hk
  | cons a rest ih =>
    cases k with
    | zero =>
      obtain rfl : a = b := by simpa using hk
      exact fun h => hne ((BitVec.add_left_inj _).1 h)
    | succ k => exact fun h => ih (by simpa using hk) ((BitVec.add_right_inj _).1 h)

/-- Settles O9: VERIFY compares with CHECKSUM's byte, and each of the changes gives another sum. -/
theorem verifyAcceptsOnlyTheChecksum : Obligations.VerifyAcceptsOnlyTheChecksum := by
  intro t i p s
  have hrefused : ∀ t' i' p', frameSum t' i' p' ≠ frameSum t i p →
      exec (.verify t' i' p' (checksumOf t i p)) s = .next { s with returned := .bool false } := by
    intro t' i' p' hsum
    rw [exec_verify, verifyOf_checksumOf_of_ne hsum]
    rfl
  refine ⟨checksumOf t i p, exec_checksum t i p s, fun d => ?accepts, fun t' ht => hrefused _ _ _ ?type,
    fun i' hi => hrefused _ _ _ ?id, fun k b b' hk hne => hrefused _ _ _ ?payload⟩
  case accepts =>
    rw [exec_verify, verifyOf_eq_decide_checksumOf]
    rfl
  case type => simpa [frameSum_eq] using ht
  case id => simpa [frameSum_eq] using hi
  case payload => simpa [frameSum_eq] using sumBytes_set_ne hk hne

/-! ## The order of the bytes -/

/-- R115: the accumulator takes the sum one byte at a time. -/
theorem foldl_add_eq_sumBytes (p : List Byte) (a : Byte) : p.foldl (· + ·) a = a + sumBytes p := by
  induction p generalizing a with
  | nil => simp [sumBytes]
  | cons b rest ih => rw [List.foldl_cons, ih, sumBytes, BitVec.add_assoc]

/-- R116: the sum does not see the order. -/
theorem sumBytes_perm {p q : List Byte} (h : p.Perm q) : sumBytes p = sumBytes q := by
  induction h with
  | nil => rfl
  | cons b _ ih => rw [sumBytes, sumBytes, ih]
  | swap a b rest => simp only [sumBytes, ← BitVec.add_assoc, BitVec.add_comm a b]
  | trans _ _ ih1 ih2 => exact ih1.trans ih2

/-- Settles O10: both operations see the payload through its sum alone. -/
theorem sumIgnoresOrder : Obligations.SumIgnoresOrder := by
  refine fun t i p q c s => ⟨?accumulator, fun hperm => ?order⟩
  case accumulator => rw [foldl_add_eq_sumBytes, ← frameSum_eq, frameSum]
  case order =>
    have hsum : frameSum t i p = frameSum t i q := by rw [frameSum_eq, frameSum_eq, sumBytes_perm hperm]
    rw [exec_checksum, exec_checksum, exec_verify, exec_verify, checksumOf, checksumOf, verifyOf, verifyOf, hsum]
    exact ⟨rfl, rfl⟩

/-! ## A returned frame -/

/-- R34 (g), R172: the bytes of a live view are the bytes the buffer lists. -/
theorem viewBytes_of_frame {s : State} {t : Byte} {n : Half} (h : PacketInv s) (hres : s.lastResult = .frame t n) :
    viewBytes s n.toNat = s.buf.map Prod.snd := by
  obtain ⟨hsize, hindices, -⟩ := buf_of_frame h hres
  have hview : viewBytes s (s.buf.map Prod.snd).length = s.buf.map Prod.snd := by
    refine viewBytes_eq_of_read fun j hj => ?_
    rw [List.getElem_map]
    exact Memory.read_of_consecutive hindices (by simpa using hj)
  rwa [List.length_map, hsize] at hview

/-- Settles O53: the invariant has the sum `0xFF` of a complete Packet as the sum of the very bytes VERIFY is given. -/
theorem returnedFrameVerifies : Obligations.ReturnedFrameVerifies := by
  intro s t n h hres
  have hview := viewBytes_of_frame h hres
  obtain ⟨-, -, -, -, -, hvalid, -, ⟨-, -, hsum⟩, hmatch⟩ := h
  simp only [ResultMatches, hres] at hmatch
  obtain ⟨hc, rfl, -⟩ := hmatch
  obtain ⟨hcap, hff, hcount⟩ := hvalid hc
  have haccepted : verifyOf s.packet.frameType s.packet.frameId (viewBytes s n.toNat) s.packet.checksum = true := by
    rw [verifyOf, frameSum_eq, hview, beq_iff_eq, ← hff, hsum (by omega) hcap, if_pos hc]
  rw [exec_verify, haccepted]
  rfl

end Sys2Proof.Machine
end

section
/-! The operation codes (R94), and the operands the encoder refuses (R131, R136). -/

namespace Sys2Proof.Machine

/-! ## The operation codes -/

/-- R94: an operation code is in the bits of its own operation alone. -/
theorem operation_of_encode_eq_op {code : BitVec 3} {operands : List Byte} {i : Instr}
    (h : encode i = .op code operands) :
    (code = 0b000 ∧ ∃ x, i = .pump x) ∨ (code = 0b001 ∧ i = .parse) ∨
      (code = 0b010 ∧ ∃ t f p n, i = .encode t f p n) ∨ (code = 0b011 ∧ ∃ c0 c1 p n, i = .encodeAt c0 c1 p n) ∨
      (code = 0b100 ∧ ∃ t f p, i = .checksum t f p) ∨ (code = 0b101 ∧ ∃ t f p c, i = .verify t f p c) ∨
      (code = 0b110 ∧ i = .reset) := by
  cases i
  case pump | parse | encode | encodeAt | checksum | verify | reset => cases h; simp
  all_goals cases h

theorem decode_op_unassigned (st : Option PacketState) (operands : List Byte) :
    decode st (.op 0b111 operands) = .error .unassignedCode := rfl

/-- Settles O2: what an operation code decodes to has that code in its bits. -/
theorem operationCodesAsAssigned : Obligations.OperationCodesAsAssigned := by
  refine ⟨fun st code operands i h => ?decoded, fun _ => ⟨_, rfl⟩, ⟨_, rfl⟩, fun _ _ _ _ => ⟨_, rfl⟩,
    fun _ _ _ _ => ⟨_, rfl⟩, fun _ _ _ => ⟨_, rfl⟩, fun _ _ _ _ => ⟨_, rfl⟩, ⟨_, rfl⟩,
    fun s operands rest hq => ?unassigned⟩
  case decoded => exact operation_of_encode_eq_op (encode_of_decodeOp_eq_ok h).1
  case unassigned => exact step_eq_refused_of_undecodable hq (decode_op_unassigned _ operands)

/-! ## The encoder's refusals -/

theorem encodePayload_of_tooLong (p : List Byte) {n : Half} (hlong : 65533 < n.toNat) :
    encodePayload p n = .error .payloadTooLong := if_pos hlong

theorem encodePayload_of_tooShort {p : List Byte} {n : Half} (hmax : n.toNat ≤ 65533) (hshort : p.length < n.toNat) :
    encodePayload p n = .error .payloadTooShort :=
  (if_neg (Nat.not_lt.2 hmax)).trans (if_pos hshort)

theorem encodeAtPayload_of_tooLong (c0 c1 : Byte) (p : List Byte) {m : Half} (hlong : 65533 < m.toNat + 2) :
    encodeAtPayload c0 c1 p m = .error .payloadTooLong := if_pos hlong

theorem encodeAtPayload_of_tooShort (c0 c1 : Byte) {p : List Byte} {m : Half} (hmax : m.toNat + 2 ≤ 65533)
    (hshort : p.length < m.toNat) : encodeAtPayload c0 c1 p m = .error .payloadTooShort :=
  (if_neg (Nat.not_lt.2 hmax)).trans (if_pos hshort)

/-- Settles O13: the refusal is the one the payload operand names. -/
theorem encoderRefusesOutsidePreconditions : Obligations.EncoderRefusesOutsidePreconditions := by
  refine ⟨fun t i p n s => ⟨fun hlong => ?_, fun hmax hshort => ?_⟩,
    fun c0 c1 p m s => ⟨fun hlong => ?_, fun hmax hshort => ?_⟩⟩
  · rw [exec_encode, encodePayload_of_tooLong p hlong, sendFrame]
  · rw [exec_encode, encodePayload_of_tooShort hmax hshort, sendFrame]
  · rw [exec_encodeAt, encodeAtPayload_of_tooLong c0 c1 p hlong, sendFrame]
  · rw [exec_encodeAt, encodeAtPayload_of_tooShort c0 c1 hmax hshort, sendFrame]

end Sys2Proof.Machine
end

section
/-! What no step changes: the parameters (R11), and the canonical form of the buffer (R50). -/

namespace Sys2Proof.Machine

/-- A step that answers changes nothing, or takes a request from the queue and performs an instruction. -/
theorem step_next {s s' : State} (h : step s = .next s') :
    s' = s ∨ ∃ rest i, exec i (s.setRequests rest) = .next s' := by
  cases hq : s.requests with
  | nil =>
    rw [step_of_requests_nil hq] at h
    cases h
    exact .inl rfl
  | cons r rest =>
    cases hd : decode s.packet.stateName r with
    | error e =>
      rw [step_eq_refused_of_undecodable hq hd] at h
      cases h
    | ok i =>
      rw [step_eq_exec_of_decode hq hd] at h
      exact .inr ⟨rest, i, h⟩

/-- Settles O46: no instruction touches the parameters. -/
theorem parametersNeverChange : Obligations.ParametersNeverChange := by
  refine ⟨fun s s' h => ?kept, rfl⟩
  case kept =>
    obtain rfl | ⟨rest, i, hexec⟩ := step_next h
    · rfl
    · exact (moves_keep_cfg_and_requests.exec i _ s' hexec).1

/-- All that a received byte can do to the buffer: nothing, empty it, or store a payload byte. -/
theorem received_buf_cases (st : PacketState) (b : Byte) (s : State) :
    (received st b s).buf = s.buf ∨ (received st b s).buf = [] ∨
      (received st b s).buf = Memory.write s.buf (s.packet.bytesReceived - 3) b := by
  by_cases hp : st = .payload
  · subst hp
    rw [received_payload_buf]
    split
    · exact .inr (.inr rfl)
    · exact .inl rfl
  by_cases hk : st = .checksum
  · subst hk
    obtain ⟨hbuf, -⟩ | hreset := received_checksum_cases b s
    · exact .inl hbuf
    · exact .inr (.inl (congrArg State.buf hreset))
  by_cases hc : st = .complete
  · subst hc
    exact .inr (.inl (received_complete_buf b s))
  · exact .inl (received_buf_unchanged st b s hp hk hc)

theorem wf_received_buf (st : PacketState) (b : Byte) (s : State) (h : Memory.wf s.buf = true) :
    Memory.wf (received st b s).buf = true := by
  obtain hbuf | hbuf | hbuf := received_buf_cases st b s <;> rw [hbuf]
  · exact h
  · rfl
  · exact Memory.wf_write _ _ b h

theorem moves_keep_wf : Moves fun s s' => Memory.wf s.buf = true → Memory.wf s'.buf = true where
  refl _ := id
  trans _ _ _ h1 h2 := h2 ∘ h1
  rx _ _ _ _ := id
  noFrame _ _ := id
  returned _ _ := id
  fresh s _ := freshen_wf s
  byte st b s _ := wf_received_buf st b s
  tx _ _ := id

/-- Settles O45: every move keeps the canonical form. -/
theorem bufferStaysCanonical : Obligations.BufferStaysCanonical := by
  intro s s' hwf h
  exact moves_keep_wf.step (fun _ _ => id) s s' h hwf

end Sys2Proof.Machine
end

section
/-! The supersede step at the start of every assembler operation (R151), and what the byte classes write (R23, R90). -/

namespace Sys2Proof.Machine
open Sys2Proof.Safety

/-! ## A complete Packet is superseded -/

theorem pumpClass_supersede (c : ByteClass) (b : Byte) (s : State) : pumpClass c b (supersede s) = pumpClass c b s := by
  rw [pumpClass, supersede_supersede, pumpClass]

/-- A byte-class instruction is `pumpClass` of some byte: of its own, or for IDLE_MARKER of the marker. -/
theorem exists_exec_classInstr (c : ByteClass) (b : Byte) :
    ∃ b', ∀ s, exec (classInstr c b) s = pumpClass c b' s := by
  by_cases hc : c = .idleMarker
  · subst hc
    exact ⟨0x7E, fun _ => rfl⟩
  · exact ⟨b, exec_classInstr c b fun h => absurd h hc⟩

theorem exec_classInstr_supersede (c : ByteClass) (b : Byte) (s : State) :
    exec (classInstr c b) (supersede s) = exec (classInstr c b) s := by
  obtain ⟨b', h⟩ := exists_exec_classInstr c b
  rw [h, h, pumpClass_supersede]

theorem rxRead_supersede (s : State) : rxRead (supersede s) = ((rxRead s).1, supersede (rxRead s).2) := by
  cases hrx : s.rx with
  | nil => rw [rxRead_of_rx_nil hrx, rxRead_of_rx_nil ((supersede_rx s).trans hrx)]
  | cons a rest => rw [rxRead_of_rx_cons hrx, rxRead_of_rx_cons ((supersede_rx s).trans hrx), supersede_setRx]

theorem exec_pump_supersede (x : PumpInput) (s : State) : exec (.pump x) (supersede s) = exec (.pump x) s := by
  cases x with
  | given a => exact pump_supersede a s
  | read => rw [exec_pump_read, rxRead_supersede, pump_supersede, exec_pump_read]

theorem exec_parse (s : State) : exec .parse s = parseLoop s.rx (supersede s) := rfl

theorem exec_parse_supersede (s : State) : exec .parse (supersede s) = exec .parse s := by
  rw [exec_parse, exec_parse, supersede_rx, supersede_supersede]

theorem exec_frameHead_supersede (h l t i : Byte) (s : State) :
    exec (.frameHead h l t i) (supersede s) = exec (.frameHead h l t i) s := by
  simp only [exec_frameHead, pumpAll, pump_supersede]

/-- Settles O17: each of the operations sees only what the supersede step leaves. -/
theorem completePacketIsSuperseded : Obligations.CompletePacketIsSuperseded := by
  intro s a hc
  have hfresh : ({ s with packet := Packet.fresh, buf := [] } : State) = supersede s :=
    (supersede_of_complete s hc).symm
  rw [hfresh]
  exact ⟨(exec_pump_supersede _ s).symm, (exec_pump_supersede _ s).symm, (exec_parse_supersede s).symm,
    fun c b => (exec_classInstr_supersede c b s).symm, fun h l t i => (exec_frameHead_supersede h l t i s).symm⟩

/-! ## The byte classes -/

/-- Settles O31: the supersede step does not change how a byte is classified, and a byte of another class is refused. -/
theorem classOutsideItsConditionIsRefused : Obligations.ClassOutsideItsConditionIsRefused := by
  intro s st c b hst hclass hmarker
  obtain ⟨st', hst', hsame⟩ := supersede_classify s st hst
  rw [exec_classInstr c b hmarker, pumpClass, hst']
  exact if_neg (by rwa [hsame b])

/-- Settles O32: an answered class instruction is its byte received in the state of that class, whose row of the table
R177 writes the fields. -/
theorem classWritesOnlyItsFields : Obligations.ClassWritesOnlyItsFields := by
  intro c b s s' hc h
  obtain ⟨b', st, hst, rfl, rfl, -⟩ := classInstr_next c b s s' h
  have hne := ne_complete_of_stateName hst hc
  cases st
  case complete => exact absurd rfl hne
  case idle =>
    right
    obtain ⟨hb, hp⟩ | hp := received_idle_packet b' s <;> rw [hp]
    · simp [hb, (stateName_eq_idle _).1 hst, classify]
    · simp
  case checksum =>
    simp only [received]
    split
    · right; simp [classify]
    · left; simp [classify]
  all_goals right; simp [received, classify]

/-! ## The table of the named states -/

/-- R177: a byte outside a frame, on a fresh Packet or on one that the byte supersedes. -/
theorem stateName_received_outside {st : PacketState} (hout : st = .idle ∨ st = .complete) (b : Byte) {s : State}
    (hst : s.packet.stateName = some st) :
    (received st b s).packet.stateName = some (if b = 0x7E then .headerLengthHigh else .idle) := by
  by_cases hb : b = 0x7E
  · subst hb
    rcases hout with rfl | rfl <;> rfl
  · rw [if_neg hb]
    rcases hout with rfl | rfl
    · rw [received_idle_of_ne_start hb, State.setResult_packet, hst]
    · have hdiscarded : received .complete b s = s.discarded := if_neg hb
      rw [hdiscarded]
      rfl

/-- R32: a Packet in a state of the frame has started and is not complete. -/
theorem inProgress_of_stateName {p : Packet} {st : PacketState} (h : p.stateName = some st) (h1 : st ≠ .idle)
    (h2 : st ≠ .complete) : p.started = true ∧ p.checksumReceived = false := by
  obtain ⟨hc, ⟨hidle, -⟩ | ⟨hs, -⟩⟩ := stateName_key p st h h2
  · exact absurd hidle h1
  · exact ⟨hs, hc⟩

/-- R170, R171, R177: the checksum byte completes a frame that fits and sums to `0xFF`, and discards any other. -/
theorem received_checksum_transition (b : Byte) (s : State) :
    if s.packet.length.toNat ≤ s.cfg.cap ∧ s.packet.runSum + b = 0xFF then
      (received .checksum b s).packet.stateName = some .complete ∧
      ∃ n : Half, n.toNat = s.packet.length.toNat - 2 ∧
        (received .checksum b s).lastResult = .frame s.packet.frameType n
    else (received .checksum b s).packet.stateName = some .idle ∧ (received .checksum b s).lastResult = .noFrame := by
  by_cases hvalid : s.packet.length.toNat ≤ s.cfg.cap ∧ s.packet.runSum + b = 0xFF
  · rw [if_pos hvalid, received, if_pos hvalid]
    exact ⟨stateName_complete _ rfl, _, reportedLen_toNat _, rfl⟩
  · rw [if_neg hvalid, received, if_neg hvalid]
    exact ⟨rfl, rfl⟩

/-- Settles O20: the byte is received, and the counter and the length that it leaves name the next state. -/
theorem packetStateTransitions : Obligations.PacketStateTransitions := by
  intro s st hst
  refine ⟨fun b => ⟨received st b s, pump_received st b s hst, ?byte⟩,
    ⟨(supersede s).setResult .noFrame, rfl, ?none, rfl⟩,
    ⟨_, exec_reset s, rfl⟩, fun hcomplete => ⟨?parse, rfl⟩⟩
  case byte =>
    have hinside := inProgress_of_stateName hst
    cases st with
    | idle => exact ⟨stateName_received_outside (.inl rfl) b hst, received_lastResult (by simp) b s⟩
    | complete => exact ⟨stateName_received_outside (.inr rfl) b hst, received_lastResult (by simp) b s⟩
    | headerLengthHigh =>
      obtain ⟨hs, hc⟩ := hinside (by simp) (by simp)
      exact ⟨stateName_started (received .headerLengthHigh b s).packet hs hc, rfl⟩
    | headerLengthLow =>
      obtain ⟨hs, hc⟩ := hinside (by simp) (by simp)
      exact ⟨stateName_started (received .headerLengthLow b s).packet hs hc, rfl⟩
    | headerType =>
      obtain ⟨hs, hc⟩ := hinside (by simp) (by simp)
      exact ⟨stateName_started (received .headerType b s).packet hs hc, rfl⟩
    | headerId =>
      obtain ⟨hs, hc⟩ := hinside (by simp) (by simp)
      refine ⟨?_, rfl⟩
      rw [stateName_of_head (p := (received .headerId b s).packet) hs hc le_rfl, apply_ite some]
      rfl
    | payload =>
      obtain ⟨hc, hs, h5, -⟩ := payload_key hst
      refine ⟨?_, rfl⟩
      rw [stateName_of_head (p := (received .payload b s).packet) hs hc (Nat.le_succ_of_le h5), apply_ite some]
      rfl
    | checksum => exact received_checksum_transition b s
  case none =>
    rw [State.setResult_packet, supersede_stateName, hst]
    simp only [← stateName_eq_complete, hst, Option.some.injEq]
    exact (apply_ite some _ _ _).symm
  case parse =>
    rw [← exec_parse_supersede, supersede_of_complete s ((stateName_eq_complete _).1 (hcomplete ▸ hst))]
    rfl

end Sys2Proof.Machine
end

section
/-! What the assembler looks at (R150, R185): the Packet, the buffer and `CAP`. Two states that agree on those take
every byte alike, whatever their streams and what was returned before. -/

namespace Sys2Proof.Machine
open Sys2Proof.Safety

/-! ## Agreement -/

/-- The states agree on all that the assembler reads. -/
structure SameAssembler (s u : State) : Prop where
  packet : u.packet = s.packet
  buf : u.buf = s.buf
  cap : u.cfg.cap = s.cfg.cap

theorem SameAssembler.setRx {s u : State} (h : SameAssembler s u) (answers answers' : List (Option Byte)) :
    SameAssembler (s.setRx answers) (u.setRx answers') := ⟨h.packet, h.buf, h.cap⟩

theorem sameAssembler_setRx (s : State) (answers : List (Option Byte)) : SameAssembler s (s.setRx answers) :=
  ⟨rfl, rfl, rfl⟩

/-- The two answers leave the assembler in the same state and return the same result. -/
structure SameAnswer (s u : State) : Prop extends SameAssembler s u where
  lastResult : u.lastResult = s.lastResult

theorem SameAssembler.setResult {s u : State} (h : SameAssembler s u) (r : ParseResult) :
    SameAnswer (s.setResult r) (u.setResult r) := ⟨⟨h.packet, h.buf, h.cap⟩, rfl⟩

theorem SameAssembler.supersede {s u : State} (h : SameAssembler s u) :
    SameAssembler (supersede s) (supersede u) := by
  by_cases hc : s.packet.checksumReceived = true
  · rw [supersede_of_complete s hc, supersede_of_complete u (h.packet ▸ hc)]
    exact ⟨rfl, rfl, h.cap⟩
  · have hc' := hc
    rw [← h.packet] at hc'
    rwa [supersede_of_not_complete s (by simpa using hc), supersede_of_not_complete u (by simpa using hc')]

theorem SameAssembler.received {s u : State} (h : SameAssembler s u) (st : PacketState) (b : Byte) :
    SameAnswer (received st b s) (received st b u) := by
  obtain ⟨hp, hbuf, hcap⟩ := h
  cases st
  case idle =>
    simp only [Machine.received, hp]
    split <;> exact ⟨⟨rfl, hbuf, hcap⟩, rfl⟩
  case complete =>
    simp only [Machine.received]
    split <;> exact ⟨⟨rfl, rfl, hcap⟩, rfl⟩
  case payload =>
    simp only [Machine.received, hp, hbuf, hcap]
    exact ⟨⟨rfl, rfl, hcap⟩, rfl⟩
  case checksum =>
    simp only [Machine.received, hp, hcap]
    split
    · exact ⟨⟨rfl, hbuf, hcap⟩, rfl⟩
    · exact ⟨⟨rfl, rfl, hcap⟩, rfl⟩
  all_goals
    simp only [Machine.received, hp]
    exact ⟨⟨rfl, hbuf, hcap⟩, rfl⟩

/-! ## The operations -/

theorem SameAssembler.pump {s u s' : State} (h : SameAssembler s u) {a : Option Byte} (hs : pump a s = .next s') :
    ∃ u', pump a u = .next u' ∧ SameAnswer s' u' := by
  obtain ⟨rfl, rfl⟩ | ⟨b, st, rfl, hst, rfl⟩ := pump_next_received a s s' hs
  · exact ⟨_, rfl, h.supersede.setResult _⟩
  · exact ⟨_, pump_received st b u (h.packet ▸ hst), h.received st b⟩

/-- Settles O21: a PUMP reads nothing but the three. -/
theorem pumpDependsOnPacketAndOperandOnly : Obligations.PumpDependsOnPacketAndOperandOnly := by
  intro a s u s' hp hbuf hcap hs
  obtain ⟨u', hu, hsame⟩ := SameAssembler.pump ⟨hp, hbuf, hcap⟩ hs
  have hreturned : u'.returned = .parse := (pump_returnsNormally a u).of_eq_next hu
  exact ⟨u', hu, hsame.packet, hsame.buf, hsame.lastResult,
    hreturned.trans ((pump_returnsNormally a s).of_eq_next hs).symm⟩

/-- R166: only a checksum byte completes a Packet. -/
theorem received_not_complete {st : PacketState} (b : Byte) {s : State} (hst : s.packet.stateName = some st)
    (hk : st ≠ .checksum) : (received st b s).packet.checksumReceived = false := by
  by_cases hne : st = .complete
  · subst hne
    exact (received_complete_packet b s).1
  · obtain ⟨-, -, -, hlast⟩ := received_counter_and_flags st b s hst hne
    simpa using mt hlast hk

/-- PARSE's loop goes on only from a named state. -/
theorem parseLoop_cons_next {s s' : State} {b : Byte} {rest : List (Option Byte)}
    (h : parseLoop (some b :: rest) s = .next s') : ∃ st, s.packet.stateName = some st := by
  cases hst : s.packet.stateName with
  | none => simp [parseLoop, hst] at h
  | some st => exact ⟨st, rfl⟩

theorem SameAssembler.parseLoop {s u s' : State} (h : SameAssembler s u) {answers : List (Option Byte)}
    (hc : s.packet.checksumReceived = false) (hs : parseLoop answers s = .next s') :
    ∃ u', parseLoop answers u = .next u' ∧ SameAnswer s' u' ∧ u'.rx = s'.rx := by
  induction answers generalizing s u with
  | nil => cases hs; exact ⟨_, rfl, (h.setRx [] []).setResult _, rfl⟩
  | cons a rest ih =>
    cases a with
    | none => cases hs; exact ⟨_, rfl, (h.setRx rest rest).setResult _, rfl⟩
    | some b =>
      obtain ⟨st, hst⟩ := parseLoop_cons_next hs
      have hbyte := (h.setRx rest rest).received st b
      rw [parseLoop_cons_received b rest hst hc] at hs
      rw [parseLoop_cons_received b rest (h.packet ▸ hst) (h.packet ▸ hc)]
      split_ifs at hs ⊢ with hk
      · cases hs
        exact ⟨_, rfl, hbyte, by simp⟩
      · exact ih hbyte.toSameAssembler (received_not_complete b (s := s.setRx rest) hst hk) hs

theorem SameAssembler.rxRead {s u : State} (h : SameAssembler s u) (hrx : u.rx = s.rx) :
    (rxRead u).1 = (rxRead s).1 ∧ SameAssembler (rxRead s).2 (rxRead u).2 := by
  cases hs : s.rx with
  | nil => rw [rxRead_of_rx_nil hs, rxRead_of_rx_nil (hrx.trans hs)]; exact ⟨rfl, h⟩
  | cons a rest => rw [rxRead_of_rx_cons hs, rxRead_of_rx_cons (hrx.trans hs)]; exact ⟨rfl, h.setRx rest rest⟩

/-- R135, R185: PUMP, PARSE and RESET do alike in states that agree for the assembler and have the same answers to
come. -/
theorem SameAssembler.exec {s u s' : State} {i : Instr} (hi : i = .parse ∨ i = .reset ∨ ∃ x, i = .pump x)
    (h : SameAssembler s u) (hrx : u.rx = s.rx) (hs : exec i s = .next s') :
    ∃ u', exec i u = .next u' ∧ SameAnswer s' u' ∧ u'.rx = s'.rx := by
  rcases hi with rfl | rfl | ⟨x, rfl⟩
  · rw [exec_parse] at hs ⊢
    rw [hrx]
    exact h.supersede.parseLoop (supersede_not_complete s) hs
  · cases hs
    exact ⟨_, exec_reset u, ⟨⟨rfl, rfl, h.cap⟩, rfl⟩, hrx⟩
  · cases x with
    | given a =>
      obtain ⟨u', hu, hsame⟩ := h.pump hs
      exact ⟨u', hu, hsame, by rw [(pump_keepsStreams a u u' hu).2, (pump_keepsStreams a s s' hs).2, hrx]⟩
    | read =>
      obtain ⟨hanswer, hread⟩ := h.rxRead hrx
      obtain ⟨u', hu, hsame⟩ := hread.pump (exec_pump_read s ▸ hs)
      have hu' : Machine.exec (.pump .read) u = .next u' := by rw [exec_pump_read, hanswer, hu]
      exact ⟨u', hu', hsame, by rw [(execPump_read_streams u u' hu').2, (execPump_read_streams s s' hs).2, hrx]⟩

/-- R211: what one of these operations returns is of a kind with one value. -/
theorem returned_eq_returned {s u s' u' : State} {i : Instr} (hi : i = .parse ∨ i = .reset ∨ ∃ x, i = .pump x)
    (hs : exec i s = .next s') (hu : exec i u = .next u') : u'.returned = s'.returned := by
  have hkind : OwnKind i s'.returned := (exec_returnsNormally i s).of_eq_next hs
  have hkind' : OwnKind i u'.returned := (exec_returnsNormally i u).of_eq_next hu
  rcases hi with rfl | rfl | ⟨x, rfl⟩ <;> exact Eq.trans hkind' hkind.symm

/-- Settles O15: an ENCODE leaves all that the assembler reads. -/
theorem encodeDoesNotDisturbAssembler : Obligations.EncodeDoesNotDisturbAssembler := by
  intro t f p n i s s1 u hi henc hs
  have hstreams : (∃ x, i = .pump x) ∨ i = .parse ∨ i = .reset ∨ ∃ h l t f, i = .frameHead h l t f := by tauto
  obtain ⟨bytes, -, rfl⟩ := sendFrame_next _ _ _ _ _ henc
  have hsame : SameAssembler s ((txWrite (wireFrame t f bytes) s).setReturned .nothing) := ⟨rfl, rfl, rfl⟩
  obtain ⟨u1, hu, hsame, hrx⟩ := hsame.exec hi rfl hs
  exact ⟨u1, hu, hsame.packet, hsame.buf, hsame.lastResult, hrx, returned_eq_returned hi hs hu,
    (assembler_streams hstreams hu).1⟩

/-! ## The frames to come -/

theorem SameAssembler.symm {s u : State} (h : SameAssembler s u) : SameAssembler u s :=
  ⟨h.packet.symm, h.buf.symm, h.cap.symm⟩

theorem SameAnswer.delivered {s u : State} (h : SameAnswer s u) : delivered u = delivered s := by
  simp only [Safety.delivered, viewBytes, h.lastResult, h.buf]

/-- R185: the frames that PUMPs deliver depend on the Packet, the buffer and `CAP` alone. -/
theorem SameAssembler.pumpFrames {s u : State} (h : SameAssembler s u) (answers : List (Option Byte)) :
    pumpFrames answers u = pumpFrames answers s := by
  induction answers generalizing s u with
  | nil => rfl
  | cons a rest ih =>
    cases hs : Machine.pump a s with
    | next s' =>
      obtain ⟨u', hu, hsame⟩ := h.pump hs
      rw [pumpFrames_cons_of_next rest hs, pumpFrames_cons_of_next rest hu, hsame.delivered,
        ih hsame.toSameAssembler]
    | fault f => exact absurd hs (pump_not_fault a s f)
    | refused r =>
      cases hu : Machine.pump a u with
      | next u' =>
        obtain ⟨s', hs', -⟩ := h.symm.pump hu
        simp [hs] at hs'
      | fault f => exact absurd hu (pump_not_fault a u f)
      | refused r' => simp only [Safety.pumpFrames, exec_pump_given, hs, hu]

end Sys2Proof.Machine
end

section
/-! What the assembler's operations return: a frame exactly where the verdict passed (R170, R175). -/

namespace Sys2Proof.Machine
open Sys2Proof.Safety

/-- The last result is a frame exactly where the Packet is complete, and then the Packet passed its verdict (R170). -/
def ResultOfVerdict (s : State) : Prop :=
  match s.lastResult with
  | .noFrame => s.packet.checksumReceived = false
  | .frame _ n =>
    s.packet.checksumReceived = true ∧ s.packet.length.toNat ≤ s.cfg.cap ∧ s.packet.runSum = 0xFF ∧
      n = reportedLen s.packet.length

theorem resultOfVerdict_of_noFrame {s : State} (hres : s.lastResult = .noFrame)
    (hc : s.packet.checksumReceived = false) : ResultOfVerdict s := by
  rwa [ResultOfVerdict, hres]

theorem ResultOfVerdict.of_frame {s : State} {t : Byte} {n : Half} (h : ResultOfVerdict s)
    (hres : s.lastResult = .frame t n) :
    s.packet.checksumReceived = true ∧ s.packet.length.toNat ≤ s.cfg.cap ∧ s.packet.runSum = 0xFF ∧
      n = reportedLen s.packet.length := by
  rwa [ResultOfVerdict, hres] at h

theorem ResultOfVerdict.complete_iff {s : State} (h : ResultOfVerdict s) :
    s.packet.checksumReceived = true ↔ ∃ t n, s.lastResult = .frame t n := by
  cases hres : s.lastResult with
  | noFrame =>
    rw [ResultOfVerdict, hres] at h
    simp [h]
  | frame t n => simp [(h.of_frame hres).1]

theorem resultOfVerdict_received (st : PacketState) (b : Byte) (s : State) (hst : s.packet.stateName = some st) :
    ResultOfVerdict (received st b s) := by
  by_cases hk : st = .checksum
  · subst hk
    rw [received]
    split
    next hvalid => exact ⟨rfl, hvalid.1, rfl, rfl⟩
    next => exact resultOfVerdict_of_noFrame rfl rfl
  · exact resultOfVerdict_of_noFrame (received_lastResult hk b s) (received_not_complete b hst hk)

theorem moves_keep_resultOfVerdict : Moves fun s s' => ResultOfVerdict s → ResultOfVerdict s' where
  refl _ := id
  trans _ _ _ h1 h2 := h2 ∘ h1
  rx _ _ _ _ := id
  noFrame _ hc _ := resultOfVerdict_of_noFrame rfl hc
  returned _ _ := id
  fresh _ _ := resultOfVerdict_of_noFrame rfl rfl
  byte st b s hst _ := resultOfVerdict_received st b s hst
  tx _ _ := id

/-- Before its first byte an operation of the assembler may as well meet a superseded Packet and the result NoFrame. -/
theorem resultOfVerdict_supersede (s : State) : ResultOfVerdict ((supersede s).setResult .noFrame) :=
  resultOfVerdict_of_noFrame rfl (supersede_not_complete s)

theorem exec_frameHead_setResult (h l t i : Byte) (s : State) (r : ParseResult) :
    exec (.frameHead h l t i) (s.setResult r) = exec (.frameHead h l t i) s := by
  simp only [exec_frameHead, pumpAll, pump_setResult]

/-- R170: what PUMP, PARSE, a byte class or FRAME_HEAD returns is the verdict's, from every state. -/
theorem assembler_resultOfVerdict {i : Instr} {s s' : State}
    (hi : (∃ x, i = .pump x) ∨ i = .parse ∨ (∃ c b, i = classInstr c b) ∨ ∃ h l f g, i = .frameHead h l f g)
    (h : exec i s = .next s') : ResultOfVerdict s' := by
  have hmoves := moves_keep_resultOfVerdict.exec i ((supersede s).setResult .noFrame) s'
  rcases hi with ⟨x, rfl⟩ | rfl | ⟨c, b, rfl⟩ | ⟨hi, lo, t, f, rfl⟩
  · rw [exec_pump_setResult, exec_pump_supersede] at hmoves
    exact hmoves h (resultOfVerdict_supersede s)
  · rw [exec_parse_setResult, exec_parse_supersede] at hmoves
    exact hmoves h (resultOfVerdict_supersede s)
  · obtain ⟨b', st, hst, -, rfl, -⟩ := classInstr_next c b s s' h
    exact resultOfVerdict_received st b' s hst
  · rw [exec_frameHead_setResult, exec_frameHead_supersede] at hmoves
    exact hmoves h (resultOfVerdict_supersede s)

/-- Settles O51: a frame is the verdict's, which has compared the length and the sum. -/
theorem oversizeFrameNeverReturned : Obligations.OversizeFrameNeverReturned := by
  intro s s' i t n hi h hres
  obtain ⟨hc, hcap, hff, rfl⟩ := (assembler_resultOfVerdict hi h).of_frame hres
  have hreported := reportedLen_toNat s'.packet.length
  exact ⟨hcap, by omega, hff, hc⟩

end Sys2Proof.Machine
end

section
/-! PARSE (R180): it is PUMPs of the bytes that are there, up to a checksum byte, and always answers. -/

namespace Sys2Proof.Machine
open Sys2Proof.Safety

/-! ## One byte of PARSE -/

/-- PARSE's loop overwrites the RX stream by what it leaves of its answers. -/
theorem parseLoop_setRx (answers answers' : List (Option Byte)) (s : State) :
    parseLoop answers (s.setRx answers') = parseLoop answers s := by
  rcases answers with _ | ⟨_ | b, rest⟩ <;> rfl

/-- In a meaningful state the supersede step leaves a named state, and Checksum where it was Checksum. -/
theorem supersede_named {s : State} (hm : Meaningful s) :
    ∃ st, (supersede s).packet.stateName = some st ∧ (st = .checksum ↔ s.packet.stateName = some .checksum) := by
  rw [supersede_stateName]
  by_cases hc : s.packet.checksumReceived = true
  · exact ⟨.idle, if_pos hc, by simp [stateName_complete _ hc]⟩
  · obtain ⟨st, hst⟩ := Option.isSome_iff_exists.1 hm
    exact ⟨st, (if_neg hc).trans hst, by simp [hst]⟩

theorem setRx_of_rx_eq {s : State} {answers : List (Option Byte)} (h : s.rx = answers) : s.setRx answers = s := by
  subst h
  rfl

theorem exec_pump_read_of_rx_cons {s : State} {a : Option Byte} {rest : List (Option Byte)} (hrx : s.rx = a :: rest) :
    exec (.pump .read) s = pump a ((supersede s).setRx rest) := by
  rw [exec_pump_read, rxRead_of_rx_cons hrx, ← pump_supersede, supersede_setRx]

/-- R180 line 2: with nothing available PARSE's loop takes at most one none. -/
theorem parseLoop_of_bytesReady_zero {answers : List (Option Byte)} (h : bytesReady answers = 0) (s : State) :
    parseLoop answers s = .next ((s.setRx answers.tail).setResult .noFrame) := by
  rcases answers with _ | ⟨_ | b, rest⟩
  · rfl
  · rfl
  · cases h

/-- Settles O37: a byte is received by the PUMP and by PARSE alike, and PARSE goes on from there. -/
theorem parseIsRepeatedPump : Obligations.ParseIsRepeatedPump := by
  refine fun s hm => ⟨fun b rest hrx => ?byte, fun havail => ?nothing⟩
  case byte =>
    obtain ⟨st, hst, hchecksum⟩ := supersede_named hm
    have hpump := exec_pump_read_of_rx_cons hrx
    rw [pump_received st b ((supersede s).setRx rest) hst] at hpump
    refine ⟨_, hpump, ?_⟩
    rw [exec_parse, hrx, parseLoop_cons_received b rest hst (supersede_not_complete s)]
    simp only [← hchecksum]
    split_ifs with hk
    · rfl
    · rw [exec_parse, received_rx, State.setRx_rx,
        supersede_of_not_complete _ (received_not_complete b (s := (supersede s).setRx rest) hst hk)]
  case nothing =>
    rw [exec_parse, parseLoop_of_bytesReady_zero havail]
    cases hrx : s.rx with
    | nil =>
      rw [List.tail_nil, setRx_of_rx_eq ((supersede_rx s).trans hrx), exec_pump_read, rxRead_of_rx_nil hrx]
      rfl
    | cons a rest =>
      obtain rfl : a = none := by
        cases a with
        | none => rfl
        | some b => simp [rxAvail, hrx, bytesReady] at havail
      rw [List.tail_cons, exec_pump_read_of_rx_cons hrx, pump, supersede_setRx, supersede_supersede]

/-! ## PARSE answers -/

/-- R186: PARSE's loop takes the answers from the front, at least one where there is one, and at most the bytes before
the first none and that none. -/
theorem parseLoop_answers {answers : List (Option Byte)} {s : State} (hm : Meaningful s)
    (hc : s.packet.checksumReceived = false) :
    ∃ t used, parseLoop answers s = .next t ∧ answers = used ++ t.rx ∧ used.length ≤ bytesReady answers + 1 ∧
      t.rx.length ≤ answers.length - 1 := by
  induction answers generalizing s with
  | nil => exact ⟨_, [], rfl, rfl, Nat.zero_le _, le_rfl⟩
  | cons a rest ih =>
    cases a with
    | none => exact ⟨_, [none], rfl, rfl, le_rfl, le_rfl⟩
    | some b =>
      obtain ⟨st, hst⟩ := Option.isSome_iff_exists.1 hm
      rw [parseLoop_cons_received b rest hst hc]
      split_ifs with hk
      · exact ⟨_, [some b], rfl, by simp, Nat.le_add_left 1 _, by simp⟩
      · obtain ⟨t, used, ht, hused, hlen, hleft⟩ := ih (received_named st b (s.setRx rest) hst)
          (received_not_complete b (s := s.setRx rest) hst hk)
        exact ⟨t, some b :: used, ht, by rw [List.cons_append, ← hused], Nat.succ_le_succ hlen,
          hleft.trans (Nat.sub_le _ 1)⟩

theorem supersede_meaningful {s : State} (hm : Meaningful s) : Meaningful (supersede s) := by
  obtain ⟨st, hst, -⟩ := supersede_named hm
  exact Option.isSome_iff_exists.2 ⟨st, hst⟩

/-- Settles O38: PARSE's loop answers, its result is the verdict's, and every move keeps the state meaningful. -/
theorem parseAnswers : Obligations.ParseAnswers := by
  intro s hm
  obtain ⟨t, used, ht, hused, hlen, -⟩ :=
    parseLoop_answers (answers := s.rx) (supersede_meaningful hm) (supersede_not_complete s)
  have hexec : exec .parse s = .next t := ht
  exact ⟨t, hexec, (exec_returnsNormally .parse s).of_eq_next hexec, moves_keep_meaningful.exec _ s t hexec hm,
    ⟨used, hused, hlen⟩, (assembler_resultOfVerdict (.inr (.inl rfl)) hexec).complete_iff⟩

/-! ## The frames PARSE delivers -/

/-- R184: what a PARSE returns, and then PUMPs of the answers it left, are the frames of PUMPs of all the answers. -/
theorem pumpFrames_of_parseLoop {answers : List (Option Byte)} {s t : State} (hc : s.packet.checksumReceived = false)
    (h : parseLoop answers s = .next t) :
    pumpFrames answers s = (delivered t).toList ++ pumpFrames t.rx t := by
  induction answers generalizing s with
  | nil => cases h; rfl
  | cons a rest ih =>
    cases a with
    | none =>
      cases h
      rw [pumpFrames_cons_none, delivered_of_noFrame rfl]
      have hsame : SameAssembler ((s.setRx rest).setResult .noFrame) s := ⟨rfl, rfl, rfl⟩
      exact hsame.pumpFrames rest
    | some b =>
      obtain ⟨st, hst⟩ := parseLoop_cons_next h
      have hread := (sameAssembler_setRx s rest).received st b
      rw [parseLoop_cons_received b rest hst hc] at h
      rw [pumpFrames_cons_received b rest hst, ← hread.delivered, ← hread.toSameAssembler.pumpFrames]
      split_ifs at h with hk
      · cases h
        simp
      · rw [delivered_of_noFrame (received_lastResult hk b _)]
        exact ih (received_not_complete b (s := s.setRx rest) hst hk) h

theorem parseFrames_succ_of_next {s t : State} (k : Nat) (h : exec .parse s = .next t) :
    parseFrames (k + 1) s = (delivered t).toList ++ parseFrames k t := by
  simp only [parseFrames, h]

/-- R151: the frames PUMPs deliver are those after the supersede step. -/
theorem pumpFrames_supersede (answers : List (Option Byte)) (s : State) :
    pumpFrames answers (supersede s) = pumpFrames answers s :=
  pumpFrames_congr (fun a => pump_supersede a s) answers

/-- Settles O60, by induction on the number of PARSE calls: each takes an answer where there is one, and its result
and the answers it leaves make up the frames. -/
theorem parseDeliversTheSameFrames : Obligations.ParseDeliversTheSameFrames := by
  intro s k
  induction k generalizing s with
  | zero =>
    intro _ hlen
    rw [List.length_eq_zero_iff.1 (Nat.le_zero.1 hlen)]
    rfl
  | succ k ih =>
    intro hm hlen
    obtain ⟨t, used, ht, -, -, hleft⟩ :=
      parseLoop_answers (answers := s.rx) (supersede_meaningful hm) (supersede_not_complete s)
    have hexec : exec .parse s = .next t := ht
    rw [parseFrames_succ_of_next k hexec, ih t (moves_keep_meaningful.exec _ s t hexec hm) (by omega),
      ← pumpFrames_of_parseLoop (supersede_not_complete s) ht, pumpFrames_supersede]

end Sys2Proof.Machine
end

section
/-! What can be refused in a meaningful state (60_exceptions.md section 1): bits that are no instruction, and an encoder
operation outside its preconditions. -/

namespace Sys2Proof.Machine
open Sys2Proof.Safety

/-! ## Bits that are no instruction -/

/-- Every way bits can be no instruction while the Packet has a named state. -/
def DecodeError.OfBits (e : DecodeError) : Prop :=
  e = .unassignedCode ∨ (∃ c, e = .operandBytes c) ∨ e = .noMarker ∨ e = .headSize

theorem ofBits_of_decodeOp {code : BitVec 3} {operands : List Byte} {e : DecodeError}
    (h : decodeOp code operands = .error e) : DecodeError.OfBits e := by
  have hbytes : ∀ c, DecodeError.OfBits (.operandBytes c) := fun c => .inr (.inl ⟨c, rfl⟩)
  unfold decodeOp at h
  split at h
  · unfold decodePump at h
    split at h
    · cases h
    · split at h <;> cases h; exact hbytes 0
    · split at h <;> cases h; exact hbytes 0
    · cases h; exact hbytes 0
  · unfold decodeParse at h; split at h <;> cases h; exact hbytes 1
  · unfold decodeEncode at h; split at h <;> cases h; exact hbytes 2
  · unfold decodeEncodeAt at h; split at h <;> cases h; exact hbytes 3
  · unfold decodeChecksum at h; split at h <;> cases h; exact hbytes 4
  · unfold decodeVerify at h; split at h <;> cases h; exact hbytes 5
  · unfold decodeReset at h; split at h <;> cases h; exact hbytes 6
  · cases h; exact .inl rfl

theorem ofBits_of_decodeWire {bytes : List Byte} {e : DecodeError} (h : decodeWire bytes = .error e) :
    DecodeError.OfBits e := by
  unfold decodeWire at h
  split at h
  · split at h <;> cases h
    exact .inr (.inr (.inl rfl))
  · cases h
    exact .inr (.inr (.inr rfl))

/-- R90: with a named state every received byte has a class, so only operations and frame heads can fail to decode. -/
theorem ofBits_of_decode {st : PacketState} {r : Request} {e : DecodeError}
    (h : decode (some st) r = .error e) : DecodeError.OfBits e := by
  cases r with
  | op code operands => exact ofBits_of_decodeOp h
  | rxByte b => cases h
  | wire bytes => exact ofBits_of_decodeWire h

/-! ## Instructions that are refused -/

theorem encodePayload_eq_error {p : List Byte} {n : Half} {r : Refusal} (h : encodePayload p n = .error r) :
    (r = .payloadTooLong ∨ r = .payloadTooShort) ∧ ¬(n.toNat ≤ Config.encMax ∧ n.toNat ≤ p.length) := by
  unfold encodePayload at h
  split_ifs at h with hlong hshort <;> cases h
  · exact ⟨.inl rfl, fun hpre => Nat.not_lt.2 hpre.1 hlong⟩
  · exact ⟨.inr rfl, fun hpre => Nat.not_lt.2 hpre.2 hshort⟩

theorem encodeAtPayload_eq_error {c0 c1 : Byte} {p : List Byte} {m : Half} {r : Refusal}
    (h : encodeAtPayload c0 c1 p m = .error r) :
    (r = .payloadTooLong ∨ r = .payloadTooShort) ∧ ¬(m.toNat + 2 ≤ Config.encMax ∧ m.toNat ≤ p.length) := by
  unfold encodeAtPayload at h
  split_ifs at h with hlong hshort <;> cases h
  · exact ⟨.inl rfl, fun hpre => Nat.not_lt.2 hpre.1 hlong⟩
  · exact ⟨.inr rfl, fun hpre => Nat.not_lt.2 hpre.2 hshort⟩

theorem sendFrame_refused {t i : Byte} {p : Except Refusal (List Byte)} {s : State} {r : Refusal}
    (h : sendFrame t i p s = .refused r) : p = .error r := by
  cases p with
  | ok bytes => cases h
  | error r' => cases h; rfl

/-- A PUMP in a meaningful state answers, byte or no byte. -/
theorem pump_ne_refused {s : State} (hm : Meaningful s) (a : Option Byte) (r : Refusal) : pump a s ≠ .refused r := by
  intro h
  obtain ⟨-, hunnamed⟩ := pump_refused a s r h
  obtain ⟨st, hst, -⟩ := supersede_named hm
  rw [hst] at hunnamed
  cases hunnamed

/-- In a meaningful state an instruction that can be there is refused by the encoder's preconditions alone. -/
theorem exec_refused {i : Instr} {s : State} {st : PacketState} {r : Refusal} (hst : s.packet.stateName = some st)
    (hadm : i.AdmittedAt st) (h : exec i s = .refused r) :
    (r = .payloadTooLong ∨ r = .payloadTooShort) ∧ ¬i.WellFormed := by
  have hm : Meaningful s := Option.isSome_iff_exists.2 ⟨st, hst⟩
  cases hclass : i.byteClass? with
  | some cb =>
    obtain ⟨c, b⟩ := cb
    obtain rfl := (admittedAt_of_byteClass?_eq_some st hclass).1 hadm
    obtain ⟨rfl, -⟩ := byteClass?_eq_some hclass
    exact absurd (exec_classInstr_classify b hst ▸ h) (pump_ne_refused hm _ r)
  | none =>
    cases i
    case pump x =>
      obtain ⟨answers, hoperand⟩ := pumpOperand_eq_setRx x s
      have hpump : pump (pumpOperand x s).1 (s.setRx answers) = .refused r := hoperand ▸ h
      exact absurd hpump (pump_ne_refused (s := s.setRx answers) hm _ r)
    case parse =>
      obtain ⟨t, hnext, -⟩ := parseAnswers s hm
      simp [h] at hnext
    case encode t f p n =>
      obtain ⟨hr, hpre⟩ := encodePayload_eq_error (sendFrame_refused h)
      exact ⟨hr, by simpa [Instr.wellFormed] using hpre⟩
    case encodeAt c0 c1 p m =>
      obtain ⟨hr, hpre⟩ := encodeAtPayload_eq_error (sendFrame_refused h)
      exact ⟨hr, by simpa [Instr.wellFormed] using hpre⟩
    case frameHead hi lo t f =>
      obtain ⟨-, -, -, -, s5, -, -, -, -, -, hnext, -⟩ := frameHeadIsFivePumps s hi lo t f hm
      simp [h] at hnext
    case checksum | verify | reset => cases h
    all_goals cases hclass

/-- Settles O49: a step is refused because its request does not decode, or because its instruction is. -/
theorem onlyPreconditionsRefuse : Obligations.OnlyPreconditionsRefuse := by
  intro s r hm h
  obtain ⟨st, hst⟩ := Option.isSome_iff_exists.1 hm
  cases hq : s.requests with
  | nil => simp [step_of_requests_nil hq] at h
  | cons q rest =>
    cases hd : decode s.packet.stateName q with
    | error e =>
      rw [step_eq_refused_of_undecodable hq hd] at h
      cases h
      rw [hst] at hd
      obtain rfl | ⟨c, rfl⟩ | rfl | rfl := ofBits_of_decode hd <;> simp
    | ok i =>
      rw [step_eq_exec_of_decode hq hd] at h
      obtain ⟨-, hadm⟩ := encodeInvertsDecode st q i (hst ▸ hd)
      obtain ⟨hr, hwf⟩ := exec_refused (s := s.setRequests rest) hst hadm h
      exact .inr (.inr (.inr (.inr ⟨hr, q, rest, i, rfl, hd, hwf⟩)))

end Sys2Proof.Machine
end

section
/-! Encoder and assembler together (R139, R174): a frame is received byte by byte up to its checksum byte, by PUMPs or
by one PARSE, and the checksum byte returns it or discards it. -/

namespace Sys2Proof.Machine
open Sys2Proof.Safety

/-! ## Bytes before the checksum byte -/

/-- The bytes take `s` to `u`, each received in a named state, and none of them is a checksum byte. -/
inductive BeforeChecksum : List Byte → State → State → Prop where
  | nil (s : State) : BeforeChecksum [] s s
  | cons {b : Byte} {bs : List Byte} {s u : State} (st : PacketState) (hst : s.packet.stateName = some st)
      (hk : st ≠ .checksum) (hnext : BeforeChecksum bs (received st b s) u) : BeforeChecksum (b :: bs) s u

theorem BeforeChecksum.pumpAll {bs : List Byte} {s u : State} (h : BeforeChecksum bs s u)
    (rest : List (Option Byte)) : pumpAll (bs.map some ++ rest) s = pumpAll rest u := by
  induction h with
  | nil => rfl
  | cons st hst _ _ ih => exact (pumpAll_cons_received _ _ hst).trans ih

/-- Every PUMP on the way returns NoFrame. -/
theorem BeforeChecksum.pumpAll_take {bs : List Byte} {s u : State} (h : BeforeChecksum bs s u) {k : Nat} (hk : 0 < k)
    (hle : k ≤ bs.length) : ∃ v, Machine.pumpAll ((bs.take k).map some) s = .next v ∧ v.lastResult = .noFrame := by
  induction h generalizing k with
  | nil => simp at hle; omega
  | @cons b bs s u st hst hchecksum hnext ih =>
    obtain ⟨k, rfl⟩ : ∃ m, k = m + 1 := ⟨k - 1, by omega⟩
    rw [List.take_succ_cons, List.map_cons, pumpAll_cons_received b _ hst]
    rcases Nat.eq_zero_or_pos k with rfl | hpos
    · exact ⟨_, rfl, received_lastResult hchecksum b s⟩
    · exact ih hpos (by simpa using hle)

/-- PARSE's loop takes them all and goes on. -/
theorem BeforeChecksum.parseLoop {bs : List Byte} {s u : State} (h : BeforeChecksum bs s u)
    (hc : s.packet.checksumReceived = false) (rest : List (Option Byte)) :
    parseLoop (bs.map some ++ rest) s = parseLoop rest u := by
  induction h with
  | nil => rfl
  | @cons b bs s u st hst hchecksum hnext ih =>
    rw [List.map_cons, List.cons_append, parseLoop_cons_received b _ hst hc, if_neg hchecksum, received_setRx,
      parseLoop_setRx, ih (received_not_complete b hst hchecksum)]

/-- Payload bytes within the declared length. -/
theorem beforeChecksum_payload (q : List Byte) {s : State} (hs : s.packet.started = true)
    (hc : s.packet.checksumReceived = false) (hn : 5 ≤ s.packet.bytesReceived)
    (hlen : s.packet.bytesReceived - 3 + q.length ≤ s.packet.length.toNat) :
    BeforeChecksum q s (receivedPayload q s) := by
  induction q generalizing s with
  | nil => exact .nil s
  | cons b q ih =>
    have hcount : (received .payload b s).packet.bytesReceived = s.packet.bytesReceived + 1 := rfl
    have hlength : (received .payload b s).packet.length = s.packet.length := rfl
    rw [List.length_cons] at hlen
    refine .cons .payload (stateName_eq_payload hs hc hn (by omega)) (by simp)
      (ih (s := received .payload b s) hs hc (by omega) ?_)
    rw [hlength]
    omega

/-- The head of a frame on a fresh Packet, and what comes behind it. -/
theorem beforeChecksum_head (h l t i : Byte) {q : List Byte} {s u : State} (hp : s.packet = Packet.fresh)
    (hnext : BeforeChecksum q (s.inProgress (Packet.ofHead h l t i)) u) :
    BeforeChecksum (0x7E :: h :: l :: t :: i :: q) s u := by
  refine .cons .idle ((stateName_eq_idle _).2 hp) (by simp) (.cons .headerLengthHigh rfl (by simp)
    (.cons .headerLengthLow rfl (by simp) (.cons .headerType rfl (by simp) (.cons .headerId rfl (by simp) ?_))))
  simpa [received, Packet.ofHead, shiftLeft_add_eq_joinBytes] using hnext

theorem beforeChecksum_wireFrameBody (t i : Byte) {payload : List Byte} (hmax : payload.length ≤ Config.encMax)
    {s : State} (hp : s.packet = Packet.fresh) :
    BeforeChecksum (wireFrameBody t i payload) s (atChecksum t i payload s) := by
  refine beforeChecksum_head _ _ t i hp (beforeChecksum_payload payload rfl rfl (Nat.le_refl 5) ?fits)
  case fits =>
    simp only [Packet.ofHead, joinBytes_hiByte_loByte, declaredLength_toNat hmax]
    omega

/-! ## The checksum byte of a frame -/

theorem stateName_atChecksum (t i : Byte) {payload : List Byte} (hmax : payload.length ≤ Config.encMax) (s : State) :
    (atChecksum t i payload s).packet.stateName = some .checksum := by
  rw [atChecksum_packet]
  refine stateName_eq_checksum rfl rfl (Nat.le_add_right 5 _) ?_
  simp only [declaredLength_toNat hmax]
  omega

/-- The state after a whole frame that began in `s`. -/
def afterFrame (t i : Byte) (payload : List Byte) (s : State) : State :=
  received .checksum (checksumOf t i payload) (atChecksum t i payload s)

@[simp] theorem afterFrame_cfg (t i : Byte) (payload : List Byte) (s : State) :
    (afterFrame t i payload s).cfg = s.cfg := by
  rw [afterFrame, received_cfg, atChecksum_cfg]

/-- R139: the checksum byte of a frame that fits returns its type and length and keeps the buffer. -/
theorem afterFrame_of_fits (t i : Byte) {payload : List Byte} (hmax : payload.length ≤ Config.encMax) {s : State}
    (hcap : payload.length + 2 ≤ s.cfg.cap) {n : Half} (hn : payload.length = n.toNat) :
    (afterFrame t i payload s).lastResult = .frame t n ∧
      (afterFrame t i payload s).buf = (atChecksum t i payload s).buf := by
  have hlen := declaredLength_toNat hmax
  have hvalid : (atChecksum t i payload s).packet.length.toNat ≤ (atChecksum t i payload s).cfg.cap ∧
      (atChecksum t i payload s).packet.runSum + checksumOf t i payload = 0xFF := by
    rw [atChecksum_packet, atChecksum_cfg, hlen]
    exact ⟨hcap, frameSum_add_checksumOf t i payload⟩
  have hreported : reportedLen (BitVec.ofNat 16 (payload.length + 2)) = n := by
    apply BitVec.eq_of_toNat_eq
    rw [reportedLen_toNat, hlen, ← hn, Nat.add_sub_cancel]
  rw [afterFrame, received, if_pos hvalid]
  simp only [atChecksum_packet, hreported, and_self]

/-- R139, R172: the view of a frame that fits is its payload, and every byte of it can be read. -/
theorem view_afterFrame (t i : Byte) {payload : List Byte} (hmax : payload.length ≤ Config.encMax) {s : State}
    (hcap : payload.length + 2 ≤ s.cfg.cap) {n : Half} (hn : payload.length = n.toNat) :
    viewBytes (afterFrame t i payload s) n.toNat = payload ∧
      ∀ (j : Nat) (b : Byte), payload[j]? = some b → viewByte j (afterFrame t i payload s) = .next b := by
  obtain ⟨hres, hbuf⟩ := afterFrame_of_fits t i hmax hcap hn
  have hread : ∀ j (hj : j < payload.length), Memory.read (afterFrame t i payload s).buf (2 + j) = some payload[j] := by
    rw [hbuf]
    exact fun j => read_atChecksum t i hcap
  refine ⟨hn ▸ viewBytes_eq_of_read hread, fun j b hb => ?_⟩
  obtain ⟨hj, rfl⟩ := List.getElem?_eq_some_iff.1 hb
  rw [viewByte_of_frame j hres, if_pos (by omega),
    memRead_of_read (by rw [afterFrame_cfg]; omega) (hread j hj)]

/-- Decision D5: a frame that does not fit is discarded. -/
theorem afterFrame_of_oversize (t i : Byte) {payload : List Byte} (hmax : payload.length ≤ Config.encMax) {s : State}
    (hcap : s.cfg.cap < payload.length + 2) :
    afterFrame t i payload s = (atChecksum t i payload s).discarded := by
  refine received_checksum_of_invalid (.inl ?_)
  rwa [atChecksum_cfg, atChecksum_packet, declaredLength_toNat hmax]

theorem pumpAll_wireFrame (t i : Byte) {payload : List Byte} (hmax : payload.length ≤ Config.encMax) {s : State}
    (hp : s.packet = Packet.fresh) :
    pumpAll ((wireFrame t i payload).map some) s = .next (afterFrame t i payload s) := by
  rw [wireFrame_eq_body_append, List.map_append, (beforeChecksum_wireFrameBody t i hmax hp).pumpAll]
  exact pumpAll_cons_received _ [] (stateName_atChecksum t i hmax s)

/-- Settles O54: the bytes before the last return NoFrame, and the last is the checksum byte of a frame that fits or
does not. -/
theorem roundTrip : Obligations.RoundTrip := by
  intro t i p n s0 s1 w s henc hw hp
  obtain ⟨hlen, hmax, rfl⟩ := exec_encode_sent henc hw
  have hmax' : (p.take n.toNat).length ≤ Config.encMax := hlen.trans_le hmax
  have hrun := pumpAll_wireFrame t i hmax' hp
  refine ⟨fun k hk hlt => ?earlier, fun hcap => ⟨_, hrun, ?fits⟩, fun hcap => ⟨_, hrun, ?oversize⟩⟩
  case earlier =>
    rw [wireFrame_eq_body_append] at hlt ⊢
    have hle : k ≤ (wireFrameBody t i (p.take n.toNat)).length := by simpa [Nat.lt_succ_iff] using hlt
    rw [List.take_append_of_le_length hle]
    exact (beforeChecksum_wireFrameBody t i hmax' hp).pumpAll_take hk hle
  case fits =>
    have hcap' : (p.take n.toNat).length + 2 ≤ s.cfg.cap := hlen.symm ▸ hcap
    exact ⟨(afterFrame_of_fits t i hmax' hcap' hlen).1, view_afterFrame t i hmax' hcap' hlen⟩
  case oversize =>
    rw [afterFrame_of_oversize t i hmax' (by omega)]
    exact ⟨rfl, rfl⟩

/-- R180, D14: one PARSE over a frame ends with its checksum byte and leaves what follows. -/
theorem exec_parse_wireFrame (t i : Byte) {payload : List Byte} (hmax : payload.length ≤ Config.encMax) {s : State}
    (hp : s.packet = Packet.fresh) {rest : List (Option Byte)} (hrx : s.rx = (wireFrame t i payload).map some ++ rest) :
    exec .parse s = .next ((afterFrame t i payload s).setRx rest) := by
  have hc : s.packet.checksumReceived = false := by rw [hp]; rfl
  have hc' : (atChecksum t i payload s).packet.checksumReceived = false := by rw [atChecksum_packet]; rfl
  calc exec .parse s
      = parseLoop ((wireFrameBody t i payload).map some ++ some (checksumOf t i payload) :: rest) s := by
        rw [exec_parse, supersede_of_not_complete s hc, hrx, wireFrame_eq_body_append, List.map_append,
          List.append_assoc]
        rfl
    _ = parseLoop (some (checksumOf t i payload) :: rest) (atChecksum t i payload s) :=
        (beforeChecksum_wireFrameBody t i hmax hp).parseLoop hc _
    _ = .next ((afterFrame t i payload s).setRx rest) := by
        rw [parseLoop_cons_received _ rest (stateName_atChecksum t i hmax s) hc', if_pos rfl, received_setRx]
        rfl

/-- Settles O55: PARSE takes the frame, and its result and view are those of the PUMPs. -/
theorem parseRoundTrip : Obligations.ParseRoundTrip := by
  intro t i p n s0 s1 w rest s henc hw hp hrx hcap
  obtain ⟨hlen, hmax, rfl⟩ := exec_encode_sent henc hw
  have hmax' : (p.take n.toNat).length ≤ Config.encMax := hlen.trans_le hmax
  have hcap' : (p.take n.toNat).length + 2 ≤ s.cfg.cap := hlen.symm ▸ hcap
  exact ⟨_, exec_parse_wireFrame t i hmax' hp hrx, rfl, (afterFrame_of_fits t i hmax' hcap' hlen).1,
    (view_afterFrame t i hmax' hcap' hlen).1⟩

/-! ## A frame with no payload -/

/-- Settles O58: the head leaves a declared length of at most 1, so the next byte is the checksum byte. -/
theorem shortLengthIsEmptyPayload : Obligations.ShortLengthIsEmptyPayload := by
  intro s L t i c hp hcap hL
  have hlen : (joinBytes 0 L).toNat ≤ 1 := by
    rw [joinBytes_toNat]
    rcases hL with rfl | rfl <;> decide
  have hreported : reportedLen (joinBytes 0 L) = 0 := if_neg (by omega)
  have hst : (s.inProgress (Packet.ofHead 0 L t i)).packet.stateName = some .checksum :=
    stateName_eq_checksum rfl rfl le_rfl (Nat.le_succ_of_le hlen)
  refine ⟨received .checksum c (s.inProgress (Packet.ofHead 0 L t i)), ?run, ?verdict⟩
  case run =>
    exact ((beforeChecksum_head 0 L t i hp (.nil _)).pumpAll [some c]).trans (pumpAll_cons_received c [] hst)
  case verdict =>
    split_ifs with hsum
    · rw [received, if_pos ⟨hlen.trans (Nat.le_of_succ_le hcap), hsum⟩]
      exact ⟨congrArg (ParseResult.frame t) hreported, rfl⟩
    · rw [received_checksum_of_invalid (.inr hsum)]
      exact ⟨rfl, rfl⟩

end Sys2Proof.Machine
end
